-- ==== Sys2Proof/Word.lean ====
section
/-! DEFINITION. The words of SC-CORE (00_scope.md R6, R8, R9) and the one reduction to 8 bits (R9, R10). -/

namespace Sys2Proof

/-- `WORD`: a register value, a memory cell, an operand byte (00_scope.md R6). -/
abbrev Byte := BitVec 8

/-- A value of `pc`, or an address computed from it. Nine bits, because under `PC_OVERFLOW = fault` it ranges over
0..256 (10_state.md R13, R18); under `wrap` it stays in 0..255, which is an invariant (Safety.lean). -/
abbrev CodeAddr := BitVec 9

/-- The index of one of the registers R0 to R7 (10_state.md R14). -/
abbrev Reg := Fin 8

/-- `trunc8(v) = v mod 256` on the unbounded naturals (00_scope.md R9). -/
def trunc8 (v : Nat) : Byte := BitVec.ofNat 8 v

end Sys2Proof
end

