-- ==== Sys2Proof/Config.lean ====
section
/-! DEFINITION. The implementation parameters of SC-CORE (00_scope.md R6): `OPCODE_MAP`, `PC_OVERFLOW`,
`PRN_TERMINATOR`. R7: no other parameter exists. Their default values stand in Decode.lean. The spec leaves no value
undefined, so there is no opaque constant here. -/

namespace Sys2Proof

/-- `PC_OVERFLOW`: what address arithmetic on `pc` does past 255 (00_scope.md R6, 20_memory.md R37). -/
inductive PcOverflow where
  | wrap
  | fault
  deriving DecidableEq, Repr

/-- The thirteen mnemonics, in the table's order (00_scope.md R2). -/
inductive Mnemonic where
  | hlt | ldi | prn | add | mul | cmp | push | pop | call | ret | jmp | jeq | jne
  deriving DecidableEq, Repr

/-- The four instruction formats N, R, RR, RI (30_encoding.md R46). -/
inductive InstrFormat where
  | none
  | reg
  | regReg
  | regImm
  deriving DecidableEq, Repr

/-- `OPCODE_MAP`: the opcode byte of each mnemonic (00_scope.md R6, 30_encoding.md R50, 92_eei_decisions.md D12). -/
structure OpcodeMap where
  hlt  : Byte
  ldi  : Byte
  prn  : Byte
  add  : Byte
  mul  : Byte
  cmp  : Byte
  push : Byte
  pop  : Byte
  call : Byte
  ret  : Byte
  jmp  : Byte
  jeq  : Byte
  jne  : Byte
  deriving DecidableEq, Repr

/-- The three named parameters (00_scope.md R6). `prnTerminator` is a text, as its bytes. -/
structure Params where
  opcodeMap     : OpcodeMap
  pcOverflow    : PcOverflow
  prnTerminator : List Byte
  deriving DecidableEq, Repr

end Sys2Proof
end

