-- ==== Sys2Proof/Syntax.lean ====
section
/-! DEFINITION. The instructions of SC-CORE: one constructor per row of the opcode table, in its order
(30_encoding.md R50). -/

namespace Sys2Proof

/-- An instruction with its operand bytes, in the order op1, op2 (00_scope.md R11, 30_encoding.md R46). A register
operand is its WHOLE BYTE (30_encoding.md R47): only 0..7 name a register, and the step checks it (40_control_unit.md
R65). -/
inductive Instr where
  | hlt
  | ldi (reg imm8 : Byte)
  | prn (reg : Byte)
  | add (regA regB : Byte)
  | mul (regA regB : Byte)
  | cmp (regA regB : Byte)
  | push (reg : Byte)
  | pop (reg : Byte)
  | call (reg : Byte)
  | ret
  | jmp (reg : Byte)
  | jeq (reg : Byte)
  | jne (reg : Byte)
  deriving DecidableEq, Repr

end Sys2Proof
end

