-- ==== Sys2Proof/WellFormed.lean ====
section
/-! DEFINITION. Well-formed instructions: every register operand names a register. -/

namespace Sys2Proof

/-- The register-index operands of an instruction, in operand order (the table of 40_control_unit.md R65). -/
def Instr.registerOperands : Instr → List Byte
  | .hlt => []
  | .ldi r _ => [r]
  | .prn r => [r]
  | .add a b => [a, b]
  | .mul a b => [a, b]
  | .cmp a b => [a, b]
  | .push r => [r]
  | .pop r => [r]
  | .call r => [r]
  | .ret => []
  | .jmp r => [r]
  | .jeq r => [r]
  | .jne r => [r]

/-- "Only 0..7 name a register" (30_encoding.md R47); an immediate byte is always legal (R53). -/
def Instr.wellFormed (i : Instr) : Bool := i.registerOperands.all (fun r => decide (r.toNat < 8))

end Sys2Proof
end

