-- ==== Sys2Proof/Decode.lean ====
section
/-! DEFINITION. The Instruction Table, the decoder, and the encoder (30_encoding.md). Decoding is total on any bytes
and rejects by name. -/

namespace Sys2Proof

/-! ### The Instruction Table (30_encoding.md R50) -/

/-- The thirteen entries, in the table's order. -/
def Mnemonic.all : List Mnemonic :=
  [.hlt, .ldi, .prn, .add, .mul, .cmp, .push, .pop, .call, .ret, .jmp, .jeq, .jne]

/-- The format column of 30_encoding.md R50. -/
def Mnemonic.format : Mnemonic → InstrFormat
  | .hlt => .none
  | .ldi => .regImm
  | .prn => .reg
  | .add => .regReg
  | .mul => .regReg
  | .cmp => .regReg
  | .push => .reg
  | .pop => .reg
  | .call => .reg
  | .ret => .none
  | .jmp => .reg
  | .jeq => .reg
  | .jne => .reg

/-- The number of bytes of a format, opcode included (30_encoding.md R46). -/
def InstrFormat.width : InstrFormat → Nat
  | .none => 1
  | .reg => 2
  | .regReg => 3
  | .regImm => 3

/-- The width of an instruction's table entry (30_encoding.md R49). -/
def Mnemonic.width (mn : Mnemonic) : Nat := mn.format.width

/-- `OPCODE_MAP(mnemonic)`. -/
def OpcodeMap.byte (m : OpcodeMap) : Mnemonic → Byte
  | .hlt => m.hlt
  | .ldi => m.ldi
  | .prn => m.prn
  | .add => m.add
  | .mul => m.mul
  | .cmp => m.cmp
  | .push => m.push
  | .pop => m.pop
  | .call => m.call
  | .ret => m.ret
  | .jmp => m.jmp
  | .jeq => m.jeq
  | .jne => m.jne

/-- "A model that takes `OPCODE_MAP` as a parameter needs these thirteen values to be distinct bytes" (R50). -/
def OpcodeMap.distinct (m : OpcodeMap) : Bool := decide ((Mnemonic.all.map m.byte).Nodup)

/-- The default `OPCODE_MAP` (30_encoding.md R50, [from general knowledge, not in source]).
PRESUMED by the spec, unsafe: log 3. -/
def OpcodeMap.default : OpcodeMap where
  hlt  := 0x01
  ldi  := 0x82
  prn  := 0x47
  add  := 0xA0
  mul  := 0xA2
  cmp  := 0xA7
  push := 0x45
  pop  := 0x46
  call := 0x50
  ret  := 0x11
  jmp  := 0x54
  jeq  := 0x55
  jne  := 0x56

/-- The default parameters (00_scope.md R6): the default map, `wrap` (DESIGN CHOICE of the spec, unsafe: log 4), and
LF (DESIGN CHOICE of the spec: log 11). -/
def Params.default : Params where
  opcodeMap     := OpcodeMap.default
  pcOverflow    := .wrap
  prnTerminator := [0x0A]

/-- Legal parameters: the opcode bytes are distinct (30_encoding.md R50). -/
def Params.wellFormed (p : Params) : Bool := p.opcodeMap.distinct

/-- The lookup in the Instruction Table: an exact match of the whole opcode byte, and nothing else (30_encoding.md
R50, 40_control_unit.md R62). Where a map is not distinct, the first entry in the table's order wins (log 15). -/
def OpcodeMap.lookup (m : OpcodeMap) (opc : Byte) : Option Mnemonic :=
  Mnemonic.all.find? (fun mn => m.byte mn == opc)

/-- The instruction of a table entry and its operand bytes; an entry uses only the operands it has (00_scope.md R11). -/
def Mnemonic.build (op1 op2 : Byte) : Mnemonic → Instr
  | .hlt => .hlt
  | .ldi => .ldi op1 op2
  | .prn => .prn op1
  | .add => .add op1 op2
  | .mul => .mul op1 op2
  | .cmp => .cmp op1 op2
  | .push => .push op1
  | .pop => .pop op1
  | .call => .call op1
  | .ret => .ret
  | .jmp => .jmp op1
  | .jeq => .jeq op1
  | .jne => .jne op1

/-! ### The decoder -/

/-- Why bytes are rejected. -/
inductive DecodeError where
  /-- The opcode byte has no entry in the Instruction Table (30_encoding.md R52). -/
  | unsupportedOpcode (opcode : Byte)
  /-- The bytes end before the instruction does. This is about a LIST of bytes only; a fetch from memory never meets it. -/
  | truncated
  deriving DecidableEq, Repr

/-- Read one instruction from a list of bytes, at ascending addresses, and give the rest: the opcode is looked up,
then width − 1 operand bytes are read (30_encoding.md R45, R49). -/
def decode (m : OpcodeMap) : List Byte → Except DecodeError (Instr × List Byte)
  | [] => .error .truncated
  | opc :: rest =>
    match m.lookup opc with
    | none => .error (.unsupportedOpcode opc)
    | some mn =>
      match mn.format, rest with
      | .none, rest => .ok (mn.build 0 0, rest)
      | .reg, op1 :: rest => .ok (mn.build op1 0, rest)
      | .regReg, op1 :: op2 :: rest => .ok (mn.build op1 op2, rest)
      | .regImm, op1 :: op2 :: rest => .ok (mn.build op1 op2, rest)
      | _, _ => .error .truncated

/-! ### The encoder (30_encoding.md R46, R56) -/

/-- The mnemonic of an instruction. -/
def Instr.mnemonic : Instr → Mnemonic
  | .hlt => .hlt
  | .ldi _ _ => .ldi
  | .prn _ => .prn
  | .add _ _ => .add
  | .mul _ _ => .mul
  | .cmp _ _ => .cmp
  | .push _ => .push
  | .pop _ => .pop
  | .call _ => .call
  | .ret => .ret
  | .jmp _ => .jmp
  | .jeq _ => .jeq
  | .jne _ => .jne

/-- The operand bytes of an instruction, in ascending address order (30_encoding.md R46). -/
def Instr.operands : Instr → List Byte
  | .hlt => []
  | .ldi r i => [r, i]
  | .prn r => [r]
  | .add a b => [a, b]
  | .mul a b => [a, b]
  | .cmp a b => [a, b]
  | .push r => [r]
  | .pop r => [r]
  | .call r => [r]
  | .ret => []
  | .jmp r => [r]
  | .jeq r => [r]
  | .jne r => [r]

/-- The bytes of an instruction: "write the opcode byte of its mnemonic, then each register operand as its index,
then the immediate as its value" (30_encoding.md R56). -/
def encode (m : OpcodeMap) (i : Instr) : List Byte := m.byte i.mnemonic :: i.operands

/-- The bytes of a program: its instructions one after another (30_encoding.md R56). -/
def assemble (m : OpcodeMap) (p : List Instr) : List Byte := p.flatMap (encode m)

/-- The width of an instruction in bytes, opcode included (30_encoding.md R45, R50). -/
def Instr.width (i : Instr) : Nat := i.mnemonic.width

/-! ### The host's word -/

/-- The three bytes, at ascending addresses, of a word numbered as the opcode table numbers it (bit 0 is the least
significant bit of the first byte), every bit above `nbits` zero. -/
def wordBytes (nbits w : Nat) : List Byte :=
  let v := w % 2 ^ nbits
  [trunc8 v, trunc8 (v / 2 ^ 8), trunc8 (v / 2 ^ 16)]

/-- The instruction the decoder reads from such a word, under the default `OPCODE_MAP`. -/
def decodeTableWord (nbits w : Nat) : Option Instr :=
  match decode OpcodeMap.default (wordBytes nbits w) with
  | .ok (i, _) => some i
  | .error _ => none

end Sys2Proof
end

