-- ==== Sys2Proof/Machine/State.lean ====
section
/-! DEFINITION. The state of SC-CORE (10_state.md), the reasons a step stops, and the state after reset. -/

namespace Sys2Proof.Machine

/-- The condition code FL: exactly one of L (Less), G (Greater), E (Equal) (10_state.md R20). -/
inductive Flag where
  | less
  | greater
  | equal
  deriving DecidableEq, Repr

/-- Which index a BoundsError is about (60_exceptions.md R98). -/
inductive BoundsKind where
  | register
  | memory
  deriving DecidableEq, Repr

/-- The errors the core can raise, each with the info it records (60_exceptions.md R97, R98). InternalALUError has no
constructor (R99) and LoadError is none of the core's (R101). -/
inductive CoreError where
  /-- R97: the byte fetched and the address it was fetched from. -/
  | unsupportedOpcode (opcode : Byte) (pc : CodeAddr)
  /-- R98: the kind, the out-of-range value, and the address of the instruction's opcode. -/
  | boundsError (kind : BoundsKind) (index : Nat) (pc : CodeAddr)
  deriving DecidableEq, Repr

/-- The execution status (10_state.md R22). -/
inductive Status where
  | running
  | halted
  | faulted (e : CoreError)
  deriving DecidableEq, Repr

/-- The three operations of the ALU, a closed type (42_alu.md R78). -/
inductive AluOp where
  | add
  | mul
  | cmp
  deriving DecidableEq, Repr

/-- Memory: address and byte pairs, addresses strictly rising, no listed byte equal to what an unlisted cell reads as
(`Memory.wf` in Ops.lean; log 17). -/
abbrev Memory := List Host.Cell

/-- The state tuple of 10_state.md R13, and the model's own constant field `params` (log 2). -/
structure State where
  /-- 256 byte cells (20_memory.md R29). -/
  mem    : Memory
  /-- R0 to R7; R7 is SP (10_state.md R14, R17). -/
  regs   : Vector Byte 8
  /-- The program counter (10_state.md R18). -/
  pc     : CodeAddr
  /-- The condition code (10_state.md R20). -/
  fl     : Flag
  /-- The execution status (10_state.md R22). -/
  status : Status
  /-- The bytes PRN has emitted, oldest first (10_state.md R23). -/
  out    : List Byte
  /-- The parameters of the instance (00_scope.md R6). No step writes them. -/
  params : Params
  deriving DecidableEq, Repr

/-- The reasons a step stops: the termination reasons of the run loop (40_control_unit.md R70). Each is raised by
`step` alone, in a state whose status is terminal, where the spec gives the control unit no step (R60). SAFE: no state
follows, and the state that stopped is final. -/
inductive Fault where
  /-- Raised by `step` when `status = Halted` (R60, R70). Safe. -/
  | halted
  /-- Raised by `step` when the run has ended in UnsupportedOpcode (R60, R70). Safe. -/
  | unsupportedOpcode (opcode : Byte) (pc : CodeAddr)
  /-- Raised by `step` when the run has ended in BoundsError (R60, R70). Safe. -/
  | boundsError (kind : BoundsKind) (index : Nat) (pc : CodeAddr)
  deriving DecidableEq, Repr

/-- The reasons an instruction is refused. -/
inductive Refusal where
  /-- An instruction with no meaning in this model, by its mnemonic. Nothing raises it: every instruction has its
  meaning. Safe. -/
  | notModelled (mnemonic : String)
  deriving DecidableEq, Repr

/-- The state a Control Unit instance is constructed with (10_state.md R27, 70_reset_and_hazards.md R109), under the
default parameters. R7 = 0xF4 is the spec's decision D3 (log 5). -/
def State.reset : State where
  mem    := []
  regs   := #v[0, 0, 0, 0, 0, 0, 0, 0xF4]
  pc     := 0
  fl     := .equal
  status := .running
  out    := []
  params := Params.default

end Sys2Proof.Machine
end

