-- ==== Sys2Proof/Machine/Ops.lean ====
section
/-! DEFINITION. The named operations over memory, registers, pc, stack, output and status: the pseudocode primitives
of 00_scope.md R10, and raising an error (60_exceptions.md R100). -/

namespace Sys2Proof.Machine

/-! ### Memory (20_memory.md) -/

/-- What a cell that is not listed reads as: memory is "zero-initialized at construction" (20_memory.md R29). -/
def unlistedByte : Byte := 0

/-- The byte at an address. -/
def Memory.read : Memory → Nat → Byte
  | [], _ => unlistedByte
  | (k, v) :: rest, a => if k = a then v else Memory.read rest a

/-- Put a cell in its place, by address. -/
def Memory.insertCell (a : Nat) (v : Byte) : Memory → Memory
  | [] => [(a, v)]
  | (k, w) :: rest => if a < k then (a, v) :: (k, w) :: rest else (k, w) :: Memory.insertCell a v rest

/-- Drop what is listed at an address. -/
def Memory.erase (a : Nat) : Memory → Memory
  | [] => []
  | (k, w) :: rest => if k = a then Memory.erase a rest else (k, w) :: Memory.erase a rest

/-- Store a byte at an address and keep the canonical form: writing what an unlisted cell reads as removes the entry. -/
def Memory.write (m : Memory) (a : Nat) (v : Byte) : Memory :=
  if v = unlistedByte then Memory.erase a m else Memory.insertCell a v (Memory.erase a m)

/-- The canonical form from an address upwards: addresses strictly rising, all below `MEM_SIZE` = 256, no listed byte
equal to `unlistedByte`. -/
def Memory.wfFrom (lo : Nat) : Memory → Bool
  | [] => true
  | (k, v) :: rest => decide (lo ≤ k) && decide (k < 256) && decide (v ≠ unlistedByte) && Memory.wfFrom (k + 1) rest

/-- The canonical form. -/
def Memory.wf (m : Memory) : Bool := Memory.wfFrom 0 m

/-- Write a list of bytes to consecutive cells, from an address upwards (70_reset_and_hazards.md R112). -/
def Memory.load (m : Memory) (a : Nat) : List Byte → Memory
  | [] => m
  | v :: vs => Memory.load (Memory.write m a v) (a + 1) vs

/-- `MemRead(a, 1)` (20_memory.md R34). -/
def State.memRead (s : State) (a : Byte) : Byte := Memory.read s.mem a.toNat

/-- `MemWrite(a, 1, v)` (20_memory.md R35). -/
def State.memWrite (s : State) (a : Byte) (v : Byte) : State :=
  { s with mem := Memory.write s.mem a.toNat v }

/-! ### Registers (10_state.md R14, R15, R17) -/

/-- R7, the stack pointer: `SP_INDEX` = 7 (00_scope.md R6). -/
def spIndex : Reg := 7

/-- `x[i]`. -/
def State.reg (s : State) (i : Reg) : Byte := s.regs[i]

/-- `x[i] <- v`; a `Byte` is already `trunc8` of itself. -/
def State.setReg (s : State) (i : Reg) (v : Byte) : State := { s with regs := s.regs.set i v }

/-- `SP`, the same cell as `x[7]` (00_scope.md R10). -/
def State.sp (s : State) : Byte := s.reg spIndex

/-- `SP <- v`. -/
def State.setSp (s : State) (v : Byte) : State := s.setReg spIndex v

/-! ### Address arithmetic and the program counter (20_memory.md R37, 40_control_unit.md R67) -/

/-- `a (+) k`: reduced modulo 256 under `wrap`, not reduced under `fault` (20_memory.md R37). -/
def addrPlus (o : PcOverflow) (a : CodeAddr) (k : Nat) : CodeAddr :=
  match o with
  | .wrap => BitVec.ofNat 9 ((a.toNat + k) % 256)
  | .fault => BitVec.ofNat 9 (a.toNat + k)

/-- `pc (+) k`. -/
def State.pcPlus (s : State) (k : Nat) : CodeAddr := addrPlus s.params.pcOverflow s.pc k

/-- `pc <- target`, for a target that is a byte: a register value or a popped byte (44_control_flow.md R95). -/
def State.jump (s : State) (target : Byte) : State := { s with pc := target.setWidth 9 }

/-- `pc <- pc (+) w`, the default advance (40_control_unit.md R67). -/
def State.advance (s : State) (w : Nat) : State := { s with pc := s.pcPlus w }

/-! ### The stack primitives (43_stack.md R85, R86) -/

/-- `SP <- (SP + 255) mod 256`. -/
def State.decSp (s : State) : State := s.setSp (trunc8 (s.sp.toNat + 255))

/-- `SP <- (SP + 1) mod 256`. -/
def State.incSp (s : State) : State := s.setSp (trunc8 (s.sp.toNat + 1))

/-- `MemWrite(SP, 1, v)`. -/
def State.storeAtSp (s : State) (v : Byte) : State := s.memWrite s.sp v

/-- `push_value(v)`: SP is decremented, then the byte is stored at the new SP (43_stack.md R85). -/
def State.pushValue (s : State) (v : Byte) : State := s.decSp.storeAtSp v

/-- `pop_value()`: the byte at SP, and the state with SP incremented (43_stack.md R86). -/
def State.popValue (s : State) : Byte × State := (s.memRead s.sp, s.incSp)

/-! ### Output, halt, and raising an error -/

/-- `Emit(v)`: `out <- out ++ [v]`, and the output port sends v (00_scope.md R10, 41_system_load_io.md R77). -/
def State.emit (s : State) (v : Byte) : State := { s with out := s.out ++ [v] }

/-- `halt`: `status <- Halted` (00_scope.md R10). -/
def State.halt (s : State) : State := { s with status := .halted }

/-- `raise E(info)`: the only write is `status <- Faulted(E, info)`; registers, memory, pc, FL and out keep their
values (60_exceptions.md R100; the spec's decision D8: log 6). An error goes to no vector and saves nothing (R104), and
there is no return from one (R105). -/
def State.raise (s : State) (e : CoreError) : State := { s with status := .faulted e }

/-- The termination reason of a status, none while Running (40_control_unit.md R70). -/
def terminationReason : Status → Option Fault
  | .running => none
  | .halted => some .halted
  | .faulted (.unsupportedOpcode opc pc) => some (.unsupportedOpcode opc pc)
  | .faulted (.boundsError kind index pc) => some (.boundsError kind index pc)

/-- The numeric cause codes, the spec's own (60_exceptions.md R96, 92_eei_decisions.md D25; log 13). -/
def causeCode : Fault → Nat
  | .halted => 0
  | .unsupportedOpcode _ _ => 1
  | .boundsError _ _ _ => 2

end Sys2Proof.Machine
end

