-- ==== Sys2Proof/Machine/Flags.lean ====
section
/-! DEFINITION. The condition code: the compare law, the one write of FL, its readers' test, and its bit view. -/

namespace Sys2Proof.Machine

/-- `alu_cmp(u, v)`, unsigned (42_alu.md R81). -/
def aluCmp (u v : Byte) : Flag :=
  if u.toNat < v.toNat then .less else if v.toNat < u.toNat then .greater else .equal

/-- `FL <- f`. -/
def State.setFl (s : State) (f : Flag) : State := { s with fl := f }

/-- `FL = E`, what JEQ and JNE read (44_control_flow.md R93, R94). -/
def State.flagEqual (s : State) : Bool := decide (s.fl = .equal)

/-- One encoding of FL in bits, `0b00000LGE` (10_state.md R20, [from general knowledge, not in source]). PRESUMED by
the spec, safe: no instruction reads it (log 12). -/
def Flag.bits : Flag → Byte
  | .less => 0b00000100
  | .greater => 0b00000010
  | .equal => 0b00000001

end Sys2Proof.Machine
end

