-- ==== Sys2Proof/Machine/Operands.lean ====
section
/-! DEFINITION. Register operands: the operand check of 40_control_unit.md R65, made before any effect. -/

namespace Sys2Proof.Machine

/-- The register a register-index operand byte names, if any: 0..7 only, and the byte is not masked (30_encoding.md
R47). -/
def regOf (v : Byte) : Option Reg := if h : v.toNat < 8 then some ⟨v.toNat, h⟩ else none

/-- The BoundsError a register operand raises (60_exceptions.md R98). -/
def registerError (s : State) (v : Byte) : CoreError := .boundsError .register v.toNat s.pc

/-- Format R and RI: check one register operand, then run the effect (40_control_unit.md R65, R66). -/
def withReg (v : Byte) (s : State) (effect : Reg → State) : Host.Outcome State Fault Refusal :=
  match regOf v with
  | none => .next (s.raise (registerError s v))
  | some a => .next (effect a)

/-- Format RR: check op1, then op2, then run the effect (40_control_unit.md R65, R66). -/
def withRegs (v w : Byte) (s : State) (effect : Reg → Reg → State) : Host.Outcome State Fault Refusal :=
  match regOf v with
  | none => .next (s.raise (registerError s v))
  | some a =>
    match regOf w with
    | none => .next (s.raise (registerError s w))
    | some b => .next (effect a b)

end Sys2Proof.Machine
end

