-- ==== Sys2Proof/Machine/Alu.lean ====
section
/-! DEFINITION. The ALU, and ADD, MUL and CMP (42_alu.md). The ALU's functions are pure functions of two values, and
the instructions read the registers and write the result (90_conflicts.md C4). -/

namespace Sys2Proof.Machine

/-- `alu_add(u, v) = (u + v) mod 256` (42_alu.md R79). -/
def aluAdd (u v : Byte) : Byte := trunc8 (u.toNat + v.toNat)

/-- `alu_mul(u, v) = (u * v) mod 256` (42_alu.md R80). -/
def aluMul (u v : Byte) : Byte := trunc8 (u.toNat * v.toNat)

/-- One ALU operation on two registers: both are read, then the result goes to `x[a]`, or to FL for Compare (42_alu.md
R78). -/
def State.alu (s : State) (op : AluOp) (a b : Reg) : State :=
  match op with
  | .add => s.setReg a (aluAdd (s.reg a) (s.reg b))
  | .mul => s.setReg a (aluMul (s.reg a) (s.reg b))
  | .cmp => s.setFl (aluCmp (s.reg a) (s.reg b))

/-- ADD (42_alu.md R82). -/
def execAdd (regA regB : Byte) (s : State) : Host.Outcome State Fault Refusal :=
  withRegs regA regB s fun a b => (s.alu .add a b).advance 3

/-- MUL (42_alu.md R83). -/
def execMul (regA regB : Byte) (s : State) : Host.Outcome State Fault Refusal :=
  withRegs regA regB s fun a b => (s.alu .mul a b).advance 3

/-- CMP (42_alu.md R84). -/
def execCmp (regA regB : Byte) (s : State) : Host.Outcome State Fault Refusal :=
  withRegs regA regB s fun a b => (s.alu .cmp a b).advance 3

end Sys2Proof.Machine
end

