-- ==== Sys2Proof/Machine/ControlFlow.lean ====
section
/-! DEFINITION. CALL, RET, JMP, JEQ and JNE (44_control_flow.md). Each sets pc itself, and none also applies the
default advance when it jumps (40_control_unit.md R67). -/

namespace Sys2Proof.Machine

/-- CALL (44_control_flow.md R90): the target is read before the push; the pushed byte is `trunc8 (pc (+) 2)`
(20_memory.md R37). The spec's decisions C2, D5, D9: log 8. -/
def execCall (reg : Byte) (s : State) : Host.Outcome State Fault Refusal :=
  withReg reg s fun a => (s.pushValue (trunc8 (s.pcPlus 2).toNat)).jump (s.reg a)

/-- RET (44_control_flow.md R91). -/
def execRet (s : State) : Host.Outcome State Fault Refusal := .next (s.popValue.2.jump s.popValue.1)

/-- JMP (44_control_flow.md R92). -/
def execJmp (reg : Byte) (s : State) : Host.Outcome State Fault Refusal :=
  withReg reg s fun a => s.jump (s.reg a)

/-- JEQ (44_control_flow.md R93). The operand is checked whether or not the branch is taken (log 7). -/
def execJeq (reg : Byte) (s : State) : Host.Outcome State Fault Refusal :=
  withReg reg s fun a => if s.flagEqual then s.jump (s.reg a) else s.advance 2

/-- JNE (44_control_flow.md R94). The operand is checked whether or not the branch is taken (log 7). -/
def execJne (reg : Byte) (s : State) : Host.Outcome State Fault Refusal :=
  withReg reg s fun a => if s.flagEqual then s.advance 2 else s.jump (s.reg a)

end Sys2Proof.Machine
end

