-- ==== Sys2Proof/Machine/Stack.lean ====
section
/-! DEFINITION. PUSH and POP (43_stack.md). The order of their effects is the pseudocode's, so that the forms that
name R7 come out as the spec's decision D9 says (log 8). -/

namespace Sys2Proof.Machine

/-- PUSH (43_stack.md R87): `x[a]` is read after SP is decremented. -/
def execPush (reg : Byte) (s : State) : Host.Outcome State Fault Refusal :=
  withReg reg s fun a => (s.decSp.storeAtSp (s.decSp.reg a)).advance 2

/-- POP (43_stack.md R88): SP is read after `x[a]` is written. -/
def execPop (reg : Byte) (s : State) : Host.Outcome State Fault Refusal :=
  withReg reg s fun a => (s.setReg a (s.memRead s.sp)).incSp.advance 2

end Sys2Proof.Machine
end

