-- ==== Sys2Proof/Machine/SystemIo.lean ====
section
/-! DEFINITION. HLT, LDI and PRN (41_system_load_io.md). -/

namespace Sys2Proof.Machine

/-- HLT (41_system_load_io.md R75). -/
def execHlt (s : State) : Host.Outcome State Fault Refusal := .next (s.advance 1).halt

/-- LDI (41_system_load_io.md R76). The immediate is not checked. -/
def execLdi (reg imm8 : Byte) (s : State) : Host.Outcome State Fault Refusal :=
  withReg reg s fun a => (s.setReg a imm8).advance 3

/-- PRN (41_system_load_io.md R77). -/
def execPrn (reg : Byte) (s : State) : Host.Outcome State Fault Refusal :=
  withReg reg s fun a => (s.emit (s.reg a)).advance 2

end Sys2Proof.Machine
end

