-- ==== Sys2Proof/Machine/Dispatch.lean ====
section
/-! DEFINITION. The dispatch: exactly one execute arm per entry of the Instruction Table, and no default arm
(40_control_unit.md R66). -/

namespace Sys2Proof.Machine

/-- The execute arm of a step. -/
def exec (i : Instr) (s : State) : Host.Outcome State Fault Refusal :=
  match i with
  | .hlt => Sys2Proof.Machine.execHlt s
  | .ldi reg imm8 => Sys2Proof.Machine.execLdi reg imm8 s
  | .prn reg => Sys2Proof.Machine.execPrn reg s
  | .add regA regB => Sys2Proof.Machine.execAdd regA regB s
  | .mul regA regB => Sys2Proof.Machine.execMul regA regB s
  | .cmp regA regB => Sys2Proof.Machine.execCmp regA regB s
  | .push reg => Sys2Proof.Machine.execPush reg s
  | .pop reg => Sys2Proof.Machine.execPop reg s
  | .call reg => Sys2Proof.Machine.execCall reg s
  | .ret => Sys2Proof.Machine.execRet s
  | .jmp reg => Sys2Proof.Machine.execJmp reg s
  | .jeq reg => Sys2Proof.Machine.execJeq reg s
  | .jne reg => Sys2Proof.Machine.execJne reg s

end Sys2Proof.Machine
end

