-- ==== Sys2Proof/Machine/Fetch.lean ====
section
/-! DEFINITION. Fetch, decode and operand fetch (40_control_unit.md R61 to R64), in the priority of 60_exceptions.md
R102, and placing an instruction where the next step fetches it. -/

namespace Sys2Proof.Machine

/-- Fetch one byte for the instruction at pc. Under `fault` an address past 255 raises BoundsError(memory, address);
under `wrap` every address is in 0..255 by its reduction (20_memory.md R37, R38). -/
def fetchByte (s : State) (a : CodeAddr) : Except CoreError Byte :=
  if s.params.pcOverflow = .fault ∧ 255 < a.toNat then .error (.boundsError .memory a.toNat s.pc)
  else .ok (s.memRead (a.setWidth 8))

/-- Fetch op1, at `pc (+) 1` (00_scope.md R11). -/
def fetchOp1 (s : State) : Except CoreError Byte := fetchByte s (s.pcPlus 1)

/-- Fetch op2, at `pc (+) 2` (00_scope.md R11). -/
def fetchOp2 (s : State) : Except CoreError Byte := fetchByte s (s.pcPlus 2)

/-- Fetch the operand bytes of a table entry, op1 before op2, and build its instruction (40_control_unit.md R64). An
instruction of width w reads only the operand bytes it has. -/
def fetchOperands (s : State) (mn : Mnemonic) : Except CoreError Instr :=
  if mn.width = 1 then .ok (mn.build 0 0)
  else
    match fetchOp1 s with
    | .error e => .error e
    | .ok op1 =>
      if mn.width = 2 then .ok (mn.build op1 0)
      else
        match fetchOp2 s with
        | .error e => .error e
        | .ok op2 => .ok (mn.build op1 op2)

/-- Fetch and decode the instruction at pc: the opcode byte, its table entry, its operand bytes (40_control_unit.md
R61 to R64). An opcode not in the table raises UnsupportedOpcode before any operand is read (R63). -/
def fetch (s : State) : Except CoreError Instr :=
  match fetchByte s s.pc with
  | .error e => .error e
  | .ok opc =>
    match s.params.opcodeMap.lookup opc with
    | none => .error (.unsupportedOpcode opc s.pc)
    | some mn => fetchOperands s mn

/-- The k bytes at `pc`, `pc (+) 1`, ..., read from memory: the bytes a fetch reads where it reads k of them. -/
def instrBytes (s : State) (k : Nat) : List Byte :=
  (List.range k).map fun j => s.memRead ((s.pcPlus j).setWidth 8)

/-- Store a byte at an address computed from pc, where that address exists (0..255). -/
def placeByte (s : State) (a : CodeAddr) (v : Byte) : State :=
  if a.toNat < 256 then s.memWrite (a.setWidth 8) v else s

/-- Store bytes at `pc (+) k`, `pc (+) (k + 1)`, .... -/
def placeBytes (s : State) (k : Nat) : List Byte → State
  | [] => s
  | v :: vs => placeBytes (placeByte s (s.pcPlus k) v) (k + 1) vs

/-- The state whose next fetch reads the given bytes: they are stored from pc, and the status is Running. -/
def placeInstr (s : State) (bytes : List Byte) : State :=
  { placeBytes s 0 bytes with status := .running }

end Sys2Proof.Machine
end

