-- ==== Sys2Proof/Machine/Step.lean ====
section
/-! DEFINITION. One step of the control unit (40_control_unit.md R69), and the host's way to place an instruction. -/

namespace Sys2Proof.Machine

/-- One fetch, decode, operand check and execute round. A step exists only while Running; in a terminal state the
answer is the termination reason (40_control_unit.md R60, R70; log 1, 16). An error is a next state whose status is
Faulted (60_exceptions.md R100; log 1). -/
def step (s : State) : Host.Outcome State Fault Refusal :=
  match terminationReason s.status with
  | some r => .fault r
  | none =>
    match fetch s with
    | .error e => .next (s.raise e)
    | .ok i => exec i s

/-- The state with an instruction's word stored where `step` fetches next, and status Running (log 14). -/
def State.withFetchWord (s : State) (nbits w : Nat) : State := placeInstr s (wordBytes nbits w)

end Sys2Proof.Machine
end

