-- ==== Sys2Proof/Machine/Assembly.lean ====
section
/-! DEFINITION. The assembly text of an instruction (30_encoding.md R55). It has no semantics: a program's meaning is
its bytes (`assemble` in Decode.lean, R56). Labels are resolved by hand and have no text here (log 18). -/

namespace Sys2Proof.Machine

/-- How an immediate is written: decimal, `0x..` or `0b..` (30_encoding.md R55). -/
inductive ImmBase where
  | decimal
  | hex
  | binary
  deriving DecidableEq, Repr

/-- The character of a digit below sixteen, capitals as the spec writes them. -/
def digitChar (d : Nat) : Char := if d < 10 then Char.ofNat (0x30 + d) else Char.ofNat (0x41 + (d - 10))

/-- The decimal digits of a byte, with no leading zeros. -/
def decimalChars (v : Byte) : List Char :=
  let n := v.toNat
  if n < 10 then [digitChar n]
  else if n < 100 then [digitChar (n / 10), digitChar (n % 10)]
  else [digitChar (n / 100), digitChar (n / 10 % 10), digitChar (n % 10)]

/-- An immediate in one of its three spellings. -/
def immText : ImmBase → Byte → List Char
  | .decimal, v => decimalChars v
  | .hex, v => ['0', 'x', digitChar (v.toNat / 16), digitChar (v.toNat % 16)]
  | .binary, v => ['0', 'b'] ++ [7, 6, 5, 4, 3, 2, 1, 0].map (fun k => digitChar (v.toNat / 2 ^ k % 2))

/-- A register, `R0` to `R7`. -/
def regText (r : Byte) : List Char := 'R' :: decimalChars r

/-- The mnemonic's letters. -/
def mnemonicText : Mnemonic → List Char
  | .hlt => ['H', 'L', 'T']
  | .ldi => ['L', 'D', 'I']
  | .prn => ['P', 'R', 'N']
  | .add => ['A', 'D', 'D']
  | .mul => ['M', 'U', 'L']
  | .cmp => ['C', 'M', 'P']
  | .push => ['P', 'U', 'S', 'H']
  | .pop => ['P', 'O', 'P']
  | .call => ['C', 'A', 'L', 'L']
  | .ret => ['R', 'E', 'T']
  | .jmp => ['J', 'M', 'P']
  | .jeq => ['J', 'E', 'Q']
  | .jne => ['J', 'N', 'E']

/-- The operands of an instruction, in the order of 30_encoding.md R46. -/
def operandTexts (base : ImmBase) : Instr → List (List Char)
  | .hlt => []
  | .ldi r i => [regText r, immText base i]
  | .prn r => [regText r]
  | .add a b => [regText a, regText b]
  | .mul a b => [regText a, regText b]
  | .cmp a b => [regText a, regText b]
  | .push r => [regText r]
  | .pop r => [regText r]
  | .call r => [regText r]
  | .ret => []
  | .jmp r => [regText r]
  | .jeq r => [regText r]
  | .jne r => [regText r]

/-- "the mnemonic, then its operands ..., separated by commas" (30_encoding.md R55): `LDI R0,8`. -/
def asmText (base : ImmBase) (i : Instr) : List Char :=
  match operandTexts base i with
  | [] => mnemonicText i.mnemonic
  | ops => mnemonicText i.mnemonic ++ ' ' :: List.intercalate [','] ops

/-- Instructions on one line, separated by `;` (30_encoding.md R55). -/
def asmLine (base : ImmBase) (p : List Instr) : List Char :=
  List.intercalate [';', ' '] (p.map (asmText base))

end Sys2Proof.Machine
end

