-- ==== Sys2Proof/Machine/Run.lean ====
section
/-! DEFINITION. The ports and the life of a run: launch (70_reset_and_hazards.md R112), the run loop and its result
(40_control_unit.md R70, R71), and the host's text of the output (R73). -/

namespace Sys2Proof.Machine

/-! ### Launch -/

/-- A reset instance with the given parameters (70_reset_and_hazards.md R109, R115). -/
def State.resetWith (p : Params) : State := { State.reset with params := p }

/-- Why a launch fails (60_exceptions.md R101): no run exists, and this is no termination reason of the core. The
text-level causes belong to the loader, which is out of scope (00_scope.md R4). -/
inductive LoadError where
  /-- The image has more than 256 cells (70_reset_and_hazards.md R112, the spec's decision D15). -/
  | imageTooLong (cells : Nat)
  deriving DecidableEq, Repr

/-- The load port: the whole image from address 0, or a LoadError and no state at all (70_reset_and_hazards.md R112). -/
def launch (p : Params) (img : List Byte) : Except LoadError State :=
  if img.length ≤ 256 then
    .ok { State.resetWith p with mem := Memory.load (State.resetWith p).mem 0 img }
  else .error (.imageTooLong img.length)

/-! ### The run loop -/

/-- What the run loop gives back: the termination reason with the final state (40_control_unit.md R70), or no reason at
all where the fuel ran out (R71). -/
inductive RunResult where
  | terminated (reason : Fault) (final : State)
  | outOfFuel (s : State)
  /-- An instruction was refused; no instruction of this model is. -/
  | refused (r : Refusal) (s : State)
  deriving DecidableEq, Repr

/-- The run loop under fuel (40_control_unit.md R70, R71). A run whose status is terminal costs no fuel. -/
def run : Nat → State → RunResult
  | 0, s =>
    match step s with
    | .fault r => .terminated r s
    | .refused r => .refused r s
    | .next _ => .outOfFuel s
  | fuel + 1, s =>
    match step s with
    | .fault r => .terminated r s
    | .refused r => .refused r s
    | .next t => run fuel t

/-! ### The host's text -/

/-- The ASCII digit of a number below ten. -/
def asciiDigit (d : Nat) : Byte := trunc8 (0x30 + d)

/-- "the unsigned decimal digits of v (no sign, no leading zeros, "0" for zero)" (40_control_unit.md R73), as ASCII. -/
def decimalText (v : Byte) : List Byte :=
  let n := v.toNat
  if n < 10 then [asciiDigit n]
  else if n < 100 then [asciiDigit (n / 10), asciiDigit (n % 10)]
  else [asciiDigit (n / 100), asciiDigit (n / 10 % 10), asciiDigit (n % 10)]

/-- The host's rendering of one emitted byte (40_control_unit.md R73). -/
def renderEmission (terminator : List Byte) (v : Byte) : List Byte := decimalText v ++ terminator

/-- The host's text of the whole output log. -/
def State.hostText (s : State) : List Byte := s.out.flatMap (renderEmission s.params.prnTerminator)

end Sys2Proof.Machine
end

