-- ==== Sys2Proof/Safety.lean ====
section
/-! DEFINITION. What a legal state is, and what the end of a run says, in the terms the claims use. -/

namespace Sys2Proof.Machine

/-- The range of `pc`: 0..255 under `wrap`, 0..256 under `fault` (10_state.md R18). -/
def State.pcInRange (s : State) : Prop :=
  match s.params.pcOverflow with
  | .wrap => s.pc.toNat ≤ 255
  | .fault => s.pc.toNat ≤ 256

/-- The opcode byte at pc can be fetched: its address is in 0..255 (20_memory.md R37). -/
def State.pcFetchable (s : State) : Prop := s.pc.toNat ≤ 255

/-- What a terminal status says about the rest of the state: after HLT pc is one past an HLT byte
(41_system_load_io.md R75); after an error pc is still at the faulting instruction, and the info is about it
(60_exceptions.md R97, R98, R100). -/
def State.statusExplained (s : State) : Prop :=
  match s.status with
  | .running => True
  | .halted =>
    ∃ a : Byte, s.pc = addrPlus s.params.pcOverflow (a.setWidth 9) 1 ∧
      s.params.opcodeMap.lookup (s.memRead a) = some .hlt
  | .faulted (.unsupportedOpcode opc p) =>
    p = s.pc ∧ s.pcFetchable ∧ opc = s.memRead (s.pc.setWidth 8) ∧ s.params.opcodeMap.lookup opc = none
  | .faulted (.boundsError .register index p) =>
    p = s.pc ∧ s.pcFetchable ∧ 8 ≤ index ∧ index ≤ 255
  | .faulted (.boundsError .memory index p) =>
    p = s.pc ∧ s.params.pcOverflow = .fault ∧ index = 256

/-- The invariant of the machine. -/
structure State.Inv (s : State) : Prop where
  /-- Memory keeps its canonical form (log 17). -/
  mem_wf : Memory.wf s.mem = true
  /-- The opcode bytes are distinct (30_encoding.md R50). -/
  params_wf : s.params.wellFormed = true
  /-- pc stays in its range (10_state.md R18). -/
  pc_range : s.pcInRange
  /-- A terminal status is explained by the state (60_exceptions.md R100). -/
  status_explained : s.statusExplained

/-- The whole instruction at pc lies where it can be fetched: always under `wrap`; under `fault`, its last byte is at
an address up to 255 (20_memory.md R37). -/
def State.fits (s : State) (width : Nat) : Prop :=
  match s.params.pcOverflow with
  | .wrap => True
  | .fault => s.pc.toNat + width ≤ 256

/-- A run has ended normally exactly when `status = Halted` (70_reset_and_hazards.md R114). -/
def State.endedNormally (s : State) : Prop := s.status = .halted

/-- The numbers of the registers an instruction writes (the table of 10_state.md R16). -/
def writtenRegs : Instr → List Nat
  | .hlt => []
  | .ldi a _ => [a.toNat]
  | .prn _ => []
  | .add a _ => [a.toNat]
  | .mul a _ => [a.toNat]
  | .cmp _ _ => []
  | .push _ => [7]
  | .pop a => [a.toNat, 7]
  | .call _ => [7]
  | .ret => [7]
  | .jmp _ => []
  | .jeq _ => []
  | .jne _ => []

/-- The numbers of the registers an instruction reads, given FL (the table of 10_state.md R16). -/
def readRegs (fl : Flag) : Instr → List Nat
  | .hlt => []
  | .ldi _ _ => []
  | .prn a => [a.toNat]
  | .add a b => [a.toNat, b.toNat]
  | .mul a b => [a.toNat, b.toNat]
  | .cmp a b => [a.toNat, b.toNat]
  | .push a => [7, a.toNat]
  | .pop _ => [7]
  | .call a => [a.toNat, 7]
  | .ret => [7]
  | .jmp a => [a.toNat]
  | .jeq a => if fl = .equal then [a.toNat] else []
  | .jne a => if fl = .equal then [] else [a.toNat]

/-- The instructions that read the cell at SP (the table of 20_memory.md R31). -/
def readsStack : Instr → Bool
  | .hlt => false
  | .ldi _ _ => false
  | .prn _ => false
  | .add _ _ => false
  | .mul _ _ => false
  | .cmp _ _ => false
  | .push _ => false
  | .pop _ => true
  | .call _ => false
  | .ret => true
  | .jmp _ => false
  | .jeq _ => false
  | .jne _ => false

/-- The instructions that write the cell at the decremented SP (the table of 20_memory.md R31). -/
def writesStack : Instr → Bool
  | .hlt => false
  | .ldi _ _ => false
  | .prn _ => false
  | .add _ _ => false
  | .mul _ _ => false
  | .cmp _ _ => false
  | .push _ => true
  | .pop _ => false
  | .call _ => true
  | .ret => false
  | .jmp _ => false
  | .jeq _ => false
  | .jne _ => false

/-- The instructions that read FL: the conditional jumps (10_state.md R21). -/
def readsFlag : Instr → Bool
  | .hlt => false
  | .ldi _ _ => false
  | .prn _ => false
  | .add _ _ => false
  | .mul _ _ => false
  | .cmp _ _ => false
  | .push _ => false
  | .pop _ => false
  | .call _ => false
  | .ret => false
  | .jmp _ => false
  | .jeq _ => true
  | .jne _ => true

end Sys2Proof.Machine
end

