-- ==== Sys2Proof/Certificates/Slice0/Obligations.lean ====
section
/-! DEFINITION. The statements about SC-CORE for the provers. An operand byte `a` that names register `ra` is written
`a.toNat = ra.val`, so every legal operand byte is meant; R7 is `spIndex`. Every statement holds for both settings of
PC_OVERFLOW and for every OPCODE_MAP unless it says otherwise; no statement names `Params.default` but those about the
default map and the reset state. -/

open Sys2Proof Sys2Proof.Machine

/-! ### Reset and launch -/

/-- 10_state.md section 8: the reset value of every piece of state. The value 0xF4 of R7 is the spec's decision D3 (log
5), the empty `out` its decision D2 (log 11), and the parameters are the defaults (log 2, 3, 4). -/
def Obligations.ResetValues : Prop :=
  (∀ c : Byte, State.reset.memRead c = 0) ∧ Memory.wf State.reset.mem = true ∧
  (∀ r : Reg, State.reset.reg r = if r = spIndex then 0xF4 else 0) ∧
  State.reset.pc = 0 ∧ State.reset.fl = .equal ∧ State.reset.status = .running ∧ State.reset.out = [] ∧
  State.reset.params.opcodeMap = OpcodeMap.default ∧ State.reset.params.pcOverflow = .wrap ∧
  State.reset.params.prnTerminator = [0x0A]

/-- The machine's invariant holds of every reset instance with a legal OPCODE_MAP, and of the default one. -/
def Obligations.ResetMeetsInvariant : Prop :=
  (∀ p : Params, p.wellFormed = true → (State.resetWith p).Inv) ∧ State.reset.Inv

/-- 70_reset_and_hazards.md section 1: a launch loads the whole image from address 0 into a reset instance and leaves
cells past it 0; an image of more than 256 cells launches nothing (the spec's decision D15, log 14). -/
def Obligations.LaunchLoadsTheWholeImage : Prop :=
  ∀ (p : Params) (img : List Byte),
    (img.length ≤ 256 → ∃ s, launch p img = .ok s ∧ (∀ c : Byte, s.memRead c = img.getD c.toNat 0) ∧
      Memory.wf s.mem = true ∧ (∀ r : Reg, s.reg r = State.reset.reg r) ∧ s.pc = 0 ∧ s.fl = .equal ∧
      s.status = .running ∧ s.out = [] ∧ s.params = p) ∧
    (256 < img.length → launch p img = .error (.imageTooLong img.length))

/-! ### Encoding -/

/-- 30_encoding.md section 3: words written out bit by bit from the default OPCODE_MAP (log 3) decode to their
instructions, one at least of each family and format. -/
def Obligations.WrittenOutWordsDecode : Prop :=
  decodeTableWord 8 0b00000001 = some .hlt ∧
  decodeTableWord 24 0b00001000_00000000_10000010 = some (.ldi 0 8) ∧
  decodeTableWord 16 0b00000011_01000111 = some (.prn 3) ∧
  decodeTableWord 24 0b00000001_00000000_10100000 = some (.add 0 1) ∧
  decodeTableWord 24 0b00000010_00000001_10100111 = some (.cmp 1 2) ∧
  decodeTableWord 16 0b00000110_01000101 = some (.push 6) ∧
  decodeTableWord 16 0b00000001_01010000 = some (.call 1) ∧
  decodeTableWord 8 0b00010001 = some .ret ∧
  decodeTableWord 16 0b00000011_01010110 = some (.jne 3) ∧
  decodeTableWord 8 0b00000000 = none ∧
  decodeTableWord 24 0b00000001_00000000_10100001 = none

/-- 30_encoding.md R51, which the spec marks as information from general knowledge (log 3): in the default OPCODE_MAP
the width is `opcode[7:6]` + 1, bit 5 marks the ALU operations, and bit 4 the instructions that set pc. -/
def Obligations.DefaultOpcodesFitTheirLayout : Prop :=
  Params.default.wellFormed = true ∧
  ∀ mn : Mnemonic,
    (OpcodeMap.default.byte mn).toNat / 64 + 1 = mn.width ∧
    ((OpcodeMap.default.byte mn).getLsbD 5 = true ↔ mn = .add ∨ mn = .mul ∨ mn = .cmp) ∧
    ((OpcodeMap.default.byte mn).getLsbD 4 = true ↔
      mn = .call ∨ mn = .ret ∨ mn = .jmp ∨ mn = .jeq ∨ mn = .jne)

/-- Decoding an encoded instruction gives it back with every operand byte at every value, legal register or not, under
every OPCODE_MAP of distinct bytes, whatever bytes follow; and the encoding has the table's width. -/
def Obligations.DecodeOfEncodeIsTheInstruction : Prop :=
  ∀ (m : OpcodeMap) (i : Instr) (rest : List Byte), m.distinct = true →
    decode m (encode m i ++ rest) = .ok (i, rest) ∧ (encode m i).length = i.width

/-- What decodes is exactly an encoding: the bytes read are those of the instruction, under every OPCODE_MAP. -/
def Obligations.DecodedBytesAreTheEncoding : Prop :=
  ∀ (m : OpcodeMap) (bytes rest : List Byte) (i : Instr), decode m bytes = .ok (i, rest) →
    bytes = encode m i ++ rest

/-- 30_encoding.md section 4: an opcode byte outside the Instruction Table is rejected by name whatever follows it, a
byte of the table never is; under the default OPCODE_MAP (log 3) 243 of the 256 bytes are illegal. -/
def Obligations.OnlyTableOpcodesDecode : Prop :=
  (∀ (m : OpcodeMap) (opc : Byte) (rest : List Byte),
    decode m (opc :: rest) = .error (.unsupportedOpcode opc) ↔ ∀ mn : Mnemonic, m.byte mn ≠ opc) ∧
  ((List.range 256).filter (fun n => (OpcodeMap.default.lookup (trunc8 n)).isNone)).length = 243

/-! ### The step -/

/-- When the bytes at pc decode to an instruction that lies where it can be fetched, a step from Running is `exec` of
that instruction: this model's step adds nothing around it, since each instruction sets pc itself (40_control_unit.md
R67). -/
def Obligations.StepRunsTheDecodedInstruction : Prop :=
  ∀ (s : State) (i : Instr) (rest : List Byte), s.status = .running →
    decode s.params.opcodeMap (instrBytes s 3) = .ok (i, rest) → s.fits i.width → step s = exec i s

/-- 92_eei_decisions.md D12: what a step does with an encoded instruction does not depend on the OPCODE_MAP it was
encoded through. -/
def Obligations.StepRunsTheEncodedInstruction : Prop :=
  ∀ (s : State) (i : Instr), s.status = .running → s.params.wellFormed = true →
    instrBytes s i.width = encode s.params.opcodeMap i → s.fits i.width → step s = exec i s

/-- An instruction placed at pc for the next fetch is the one the next step runs (the model's own operation, log 14). -/
def Obligations.PlacedInstructionRuns : Prop :=
  ∀ (s : State) (i : Instr), s.params.wellFormed = true → s.fits i.width →
    step (placeInstr s (encode s.params.opcodeMap i)) = exec i (placeInstr s (encode s.params.opcodeMap i))

/-- 10_state.md R22. Running at reset; a step exists exactly from Running; Halted is set only by HLT, and always by it;
Faulted is set by an error alone: a fetch error, which always sets it, or a register operand past 7. -/
def Obligations.StatusMachine : Prop :=
  State.reset.status = .running ∧
  (∀ s : State, s.status = .running ↔ ∃ t, step s = .next t) ∧
  (∀ s t : State, step s = .next t → (t.status = .halted ↔ fetch s = .ok .hlt)) ∧
  (∀ (s : State) (e : CoreError), s.status = .running → fetch s = .error e →
    ∃ t, step s = .next t ∧ t.status = .faulted e) ∧
  (∀ (s t : State) (e : CoreError), step s = .next t → t.status = .faulted e →
    fetch s = .error e ∨
      ∃ i v, fetch s = .ok i ∧ v ∈ i.registerOperands ∧ 8 ≤ v.toNat ∧ e = .boundsError .register v.toNat s.pc)

/-- 40_control_unit.md R60, R70: in a terminal state there is no step, and the answer is the typed termination reason
(the answer's form is log 1; the spec's decision D16). -/
def Obligations.TerminalStateAnswersItsReason : Prop :=
  (∀ s : State, s.status = .halted → step s = .fault .halted) ∧
  (∀ (s : State) (opc : Byte) (p : CodeAddr), s.status = .faulted (.unsupportedOpcode opc p) →
    step s = .fault (.unsupportedOpcode opc p)) ∧
  (∀ (s : State) (k : BoundsKind) (n : Nat) (p : CodeAddr), s.status = .faulted (.boundsError k n p) →
    step s = .fault (.boundsError k n p))

/-- 40_control_unit.md R63: an opcode byte that is not in the table ends the run with UnsupportedOpcode, whatever its
operand bytes are, and the run loop stops and reports it. -/
def Obligations.UnsupportedOpcodeEndsTheRun : Prop :=
  ∀ s : State, s.status = .running → (s.params.pcOverflow = .fault → s.pcFetchable) →
    (∀ mn : Mnemonic, s.params.opcodeMap.byte mn ≠ s.memRead (s.pc.setWidth 8)) →
    ∃ t, step s = .next t ∧
      t = { s with status := .faulted (.unsupportedOpcode (s.memRead (s.pc.setWidth 8)) s.pc) } ∧
      ∀ fuel : Nat, run (fuel + 1) s = .terminated (.unsupportedOpcode (s.memRead (s.pc.setWidth 8)) s.pc) t

/-- 60_exceptions.md R98, R102: the first register operand past 7, in operand order, raises BoundsError(register) and
nothing else happens, in every instruction that has register operands, a branch not taken among them. The check's place
and order are the spec's decisions D6, D7, D8 (log 6, 7). -/
def Obligations.IllegalRegisterOperandFaults : Prop :=
  ∀ (i : Instr) (s : State) (v : Byte),
    i.registerOperands.find? (fun r => decide (8 ≤ r.toNat)) = some v →
    exec i s = .next { s with status := .faulted (.boundsError .register v.toNat s.pc) }

/-- 20_memory.md R37, 40_control_unit.md R61, R64, 60_exceptions.md R98, R100, R102, under PC_OVERFLOW = fault (the
spec's decisions D4, D7; log 4, 7): an opcode fetch past 255, and an operand fetch past 255, raise BoundsError(memory)
before the register operands are looked at; that the state is otherwise kept is the spec's decision D8 (log 6). -/
def Obligations.FetchPastTheTopFaults : Prop :=
  (∀ s : State, s.status = .running → s.params.pcOverflow = .fault → 255 < s.pc.toNat →
    step s = .next { s with status := .faulted (.boundsError .memory s.pc.toNat s.pc) }) ∧
  (∀ (s : State) (mn : Mnemonic), s.status = .running → s.params.pcOverflow = .fault → s.pc.toNat ≤ 255 →
    s.params.opcodeMap.lookup (s.memRead (s.pc.setWidth 8)) = some mn → 256 < s.pc.toNat + mn.width →
    step s = .next { s with status := .faulted (.boundsError .memory 256 s.pc) })

/-- 20_memory.md R38, under PC_OVERFLOW = wrap (the spec's decision D4, log 4): no step raises a memory BoundsError. -/
def Obligations.NoMemoryErrorUnderWrap : Prop :=
  ∀ (s t : State) (n : Nat) (p : CodeAddr), s.params.pcOverflow = .wrap → step s = .next t →
    t.status ≠ .faulted (.boundsError .memory n p)

/-- 60_exceptions.md R100 and 40_control_unit.md R68 (the spec's decision D8, log 6): a step that ends in an error
writes the status and nothing else, and the error records the pc of its instruction. -/
def Obligations.ErrorWritesOnlyTheStatus : Prop :=
  ∀ (s t : State) (e : CoreError), step s = .next t → t.status = .faulted e →
    t = { s with status := .faulted e } ∧
    ((∃ opc, e = .unsupportedOpcode opc s.pc) ∨ ∃ k n, e = .boundsError k n s.pc)

/-! ### HLT, LDI, PRN -/

/-- 41_system_load_io.md R75. HLT writes pc and the status only, its encoding is its opcode byte (of whatever map: the
default byte is R50's and is not claimed here), and no step follows; at address 255 pc becomes 0 under `wrap` and 256
under `fault`. -/
def Obligations.HltHaltsPastItself : Prop :=
  (∀ m : OpcodeMap, encode m .hlt = [m.hlt]) ∧
  ∀ s : State, ∃ t, exec .hlt s = .next t ∧ t.status = .halted ∧ t.pc = s.pcPlus 1 ∧
    (s.pc.toNat = 255 → t.pc.toNat = if s.params.pcOverflow = .wrap then 0 else 256) ∧
    step t = .fault .halted ∧
    (∀ r : Reg, t.reg r = s.reg r) ∧ (∀ c : Byte, t.memRead c = s.memRead c) ∧
    t.fl = s.fl ∧ t.out = s.out ∧ t.params = s.params

/-- 30_encoding.md R48, of LDI: the immediate is stored as it stands, at every one of its values; nothing else but pc
changes. A register operand past 7 raises BoundsError, and the immediate is not checked. -/
def Obligations.LdiStoresTheImmediateAsItStands : Prop :=
  (∀ (s : State) (a imm8 : Byte) (ra : Reg), a.toNat = ra.val →
    ∃ t, exec (.ldi a imm8) s = .next t ∧ t.reg ra = imm8 ∧ t.pc = s.pcPlus 3 ∧
      (∀ r : Reg, r ≠ ra → t.reg r = s.reg r) ∧ (∀ c : Byte, t.memRead c = s.memRead c) ∧
      t.fl = s.fl ∧ t.status = s.status ∧ t.out = s.out ∧ t.params = s.params) ∧
  (∀ (s : State) (a imm8 : Byte), 8 ≤ a.toNat →
    ∃ t, exec (.ldi a imm8) s = .next t ∧ t.status = .faulted (.boundsError .register a.toNat s.pc))

/-- 41_system_load_io.md R77, over the output log, which is the spec's decision D2 (log 11): PRN appends the register's
byte, and the host's text grows by its decimal digits and the terminator. -/
def Obligations.PrnAppendsTheByte : Prop :=
  ∀ (s : State) (a : Byte) (ra : Reg), a.toNat = ra.val →
    ∃ t, exec (.prn a) s = .next t ∧ t.out = s.out ++ [s.reg ra] ∧ t.pc = s.pcPlus 2 ∧
      t.hostText = s.hostText ++ decimalText (s.reg ra) ++ s.params.prnTerminator ∧
      (∀ r : Reg, t.reg r = s.reg r) ∧ (∀ c : Byte, t.memRead c = s.memRead c) ∧
      t.fl = s.fl ∧ t.status = s.status ∧ t.params = s.params

/-- 40_control_unit.md R73 (the spec's decision D10, log 11): the host's digits are the unsigned decimal number of the
byte, with no sign and no leading zero, and "0" for zero: there is at least one digit, and a text that starts with 0 is
that one digit. -/
def Obligations.DecimalTextIsTheNumber : Prop :=
  ∀ v : Byte,
    decimalText v ≠ [] ∧
    (decimalText v).foldl (fun n d => 10 * n + (d.toNat - 0x30)) 0 = v.toNat ∧
    (∀ d ∈ decimalText v, 0x30 ≤ d.toNat ∧ d.toNat ≤ 0x39) ∧
    ((decimalText v).head? = some 0x30 → decimalText v = [0x30])

/-! ### ADD, MUL, CMP -/

/-- 42_alu.md R79, of the function and of ADD: the low 8 bits of the sum, and no flag. -/
def Obligations.AddIsModulo256 : Prop :=
  (∀ u v : Byte, (aluAdd u v).toNat = (u.toNat + v.toNat) % 256) ∧
  ∀ (s : State) (a b : Byte) (ra rb : Reg), a.toNat = ra.val → b.toNat = rb.val →
    ∃ t, exec (.add a b) s = .next t ∧
      (t.reg ra).toNat = ((s.reg ra).toNat + (s.reg rb).toNat) % 256 ∧ t.pc = s.pcPlus 3 ∧
      (∀ r : Reg, r ≠ ra → t.reg r = s.reg r) ∧ (∀ c : Byte, t.memRead c = s.memRead c) ∧
      t.fl = s.fl ∧ t.status = s.status ∧ t.out = s.out ∧ t.params = s.params

/-- 42_alu.md R80, of the function and of MUL: the low 8 bits of the product, and no flag. -/
def Obligations.MulIsModulo256 : Prop :=
  (∀ u v : Byte, (aluMul u v).toNat = (u.toNat * v.toNat) % 256) ∧
  (∀ u : Byte, aluMul u 0 = 0 ∧ aluMul 0 u = 0) ∧
  ∀ (s : State) (a b : Byte) (ra rb : Reg), a.toNat = ra.val → b.toNat = rb.val →
    ∃ t, exec (.mul a b) s = .next t ∧
      (t.reg ra).toNat = ((s.reg ra).toNat * (s.reg rb).toNat) % 256 ∧ t.pc = s.pcPlus 3 ∧
      (∀ r : Reg, r ≠ ra → t.reg r = s.reg r) ∧ (∀ c : Byte, t.memRead c = s.memRead c) ∧
      t.fl = s.fl ∧ t.status = s.status ∧ t.out = s.out ∧ t.params = s.params

/-- 42_alu.md R81, of the function and of CMP: FL is the unsigned order of the two values, whatever it was, exactly one
of the three holds, and no register changes. -/
def Obligations.CmpIsTheUnsignedOrder : Prop :=
  (∀ u v : Byte,
    (aluCmp u v = .less ↔ u.toNat < v.toNat) ∧ (aluCmp u v = .greater ↔ v.toNat < u.toNat) ∧
    (aluCmp u v = .equal ↔ u = v)) ∧
  ∀ (s : State) (a b : Byte) (ra rb : Reg), a.toNat = ra.val → b.toNat = rb.val →
    ∃ t, exec (.cmp a b) s = .next t ∧
      (t.fl = .less ↔ (s.reg ra).toNat < (s.reg rb).toNat) ∧
      (t.fl = .greater ↔ (s.reg rb).toNat < (s.reg ra).toNat) ∧
      (t.fl = .equal ↔ s.reg ra = s.reg rb) ∧ t.pc = s.pcPlus 3 ∧
      (∀ r : Reg, t.reg r = s.reg r) ∧ (∀ c : Byte, t.memRead c = s.memRead c) ∧
      t.status = s.status ∧ t.out = s.out ∧ t.params = s.params

/-! ### PUSH, POP -/

/-- 43_stack.md R87: PUSH decrements SP, wrapping, and stores the register at the new SP. PUSH R7 stores the decremented
SP, the spec's decision D9 (log 8). The address stored to is the meaning's own, `s.decSp.sp`. -/
def Obligations.PushStoresBelowTheTop : Prop :=
  ∀ (s : State) (a : Byte) (ra : Reg), a.toNat = ra.val →
    ∃ t, exec (.push a) s = .next t ∧ s.decSp.sp.toNat = (s.sp.toNat + 255) % 256 ∧ t.sp = s.decSp.sp ∧
      t.memRead s.decSp.sp = (if ra = spIndex then s.decSp.sp else s.reg ra) ∧
      (∀ c : Byte, c ≠ s.decSp.sp → t.memRead c = s.memRead c) ∧
      (∀ r : Reg, r ≠ spIndex → t.reg r = s.reg r) ∧ t.pc = s.pcPlus 2 ∧
      t.fl = s.fl ∧ t.status = s.status ∧ t.out = s.out ∧ t.params = s.params

/-- 43_stack.md R88: POP loads the cell at SP and increments SP, wrapping; memory is left as it was. POP R7 leaves the
popped byte plus one, the spec's decision D9 (log 8). -/
def Obligations.PopLoadsTheTop : Prop :=
  ∀ (s : State) (a : Byte) (ra : Reg), a.toNat = ra.val →
    ∃ t, exec (.pop a) s = .next t ∧
      (ra ≠ spIndex → t.reg ra = s.memRead s.sp ∧ t.sp.toNat = (s.sp.toNat + 1) % 256) ∧
      (ra = spIndex → t.sp.toNat = ((s.memRead s.sp).toNat + 1) % 256) ∧
      (∀ r : Reg, r ≠ ra → r ≠ spIndex → t.reg r = s.reg r) ∧ (∀ c : Byte, t.memRead c = s.memRead c) ∧
      t.pc = s.pcPlus 2 ∧ t.fl = s.fl ∧ t.status = s.status ∧ t.out = s.out ∧ t.params = s.params

/-- 43_stack.md R89: a PUSH followed at once by a POP into the same register restores every register, R7 included, and
changes memory in the pushed cell only. -/
def Obligations.PushThenPopRestores : Prop :=
  ∀ (s : State) (a : Byte), a.toNat < 8 →
    ∃ t u, exec (.push a) s = .next t ∧ exec (.pop a) t = .next u ∧
      (∀ r : Reg, u.reg r = s.reg r) ∧ (∀ c : Byte, c ≠ s.decSp.sp → u.memRead c = s.memRead c)

/-! ### CALL, RET, JMP, JEQ, JNE -/

/-- 44_control_flow.md R90, whose operand placement and order are the spec's decisions C2, D5, D9 (log 8): CALL pushes
the low 8 bits of pc (+) 2 and goes to the register's value from before the push. -/
def Obligations.CallPushesTheReturnAddress : Prop :=
  ∀ (s : State) (a : Byte) (ra : Reg), a.toNat = ra.val →
    ∃ t, exec (.call a) s = .next t ∧ t.pc = (s.reg ra).setWidth 9 ∧
      s.decSp.sp.toNat = (s.sp.toNat + 255) % 256 ∧ t.sp = s.decSp.sp ∧
      (t.memRead s.decSp.sp).toNat = (s.pcPlus 2).toNat % 256 ∧
      (∀ c : Byte, c ≠ s.decSp.sp → t.memRead c = s.memRead c) ∧
      (∀ r : Reg, r ≠ spIndex → t.reg r = s.reg r) ∧
      t.fl = s.fl ∧ t.status = s.status ∧ t.out = s.out ∧ t.params = s.params

/-- 44_control_flow.md R91 (the default opcode byte is R50's and is not claimed here): RET takes whatever byte is at SP as its target and increments SP. -/
def Obligations.RetPopsIntoPc : Prop :=
  (∀ m : OpcodeMap, encode m .ret = [m.ret]) ∧
  ∀ s : State, ∃ t, exec .ret s = .next t ∧ t.pc = (s.memRead s.sp).setWidth 9 ∧
    t.sp.toNat = (s.sp.toNat + 1) % 256 ∧ (∀ r : Reg, r ≠ spIndex → t.reg r = s.reg r) ∧
    (∀ c : Byte, t.memRead c = s.memRead c) ∧ t.fl = s.fl ∧ t.status = s.status ∧ t.out = s.out ∧
    t.params = s.params

/-- The CALL and RET pairing of 44_control_flow.md R90 (§8 of the source): from any later state with CALL's SP and its
pushed cell intact, RET resumes after the CALL's operand byte and restores SP. The pushed byte drops bit 8 of pc (+) 2,
which only PC_OVERFLOW = fault can set. -/
def Obligations.RetResumesAfterCall : Prop :=
  ∀ (s t u : State) (a : Byte), a.toNat < 8 → exec (.call a) s = .next t → u.sp = t.sp →
    u.memRead t.sp = t.memRead t.sp →
    ∃ v, exec .ret u = .next v ∧ v.sp = s.sp ∧ v.pc.toNat = (s.pcPlus 2).toNat % 256 ∧
      (s.params.pcOverflow = .wrap → v.pc = s.pcPlus 2)

/-- 44_control_flow.md R92 (the default opcode byte is R50's and is not claimed here): JMP goes to the register's value and changes nothing else. -/
def Obligations.JmpGoesToTheRegister : Prop :=
  (∀ (m : OpcodeMap) (a : Byte), encode m (.jmp a) = [m.jmp, a]) ∧
  (∀ (s : State) (a : Byte) (ra : Reg), a.toNat = ra.val →
    ∃ t, exec (.jmp a) s = .next t ∧ t.pc = (s.reg ra).setWidth 9 ∧ (∀ r : Reg, t.reg r = s.reg r) ∧
      (∀ c : Byte, t.memRead c = s.memRead c) ∧ t.fl = s.fl ∧ t.status = s.status ∧ t.out = s.out ∧
      t.params = s.params) ∧
  (∀ (s : State) (a : Byte), 8 ≤ a.toNat →
    ∃ t, exec (.jmp a) s = .next t ∧ t.status = .faulted (.boundsError .register a.toNat s.pc))

/-- 44_control_flow.md R93, R94: JEQ jumps exactly when FL = E, JNE exactly when not, both advance by 2 otherwise, and
neither changes anything else. -/
def Obligations.ConditionalJumpsFollowFl : Prop :=
  ∀ (s : State) (a : Byte) (ra : Reg), a.toNat = ra.val →
    (∃ t, exec (.jeq a) s = .next t ∧
      t.pc = (if s.fl = .equal then (s.reg ra).setWidth 9 else s.pcPlus 2) ∧ (∀ r : Reg, t.reg r = s.reg r) ∧
      (∀ c : Byte, t.memRead c = s.memRead c) ∧ t.fl = s.fl ∧ t.status = s.status ∧ t.out = s.out ∧
      t.params = s.params) ∧
    (∃ t, exec (.jne a) s = .next t ∧
      t.pc = (if s.fl = .less ∨ s.fl = .greater then (s.reg ra).setWidth 9 else s.pcPlus 2) ∧
      (∀ r : Reg, t.reg r = s.reg r) ∧ (∀ c : Byte, t.memRead c = s.memRead c) ∧ t.fl = s.fl ∧
      t.status = s.status ∧ t.out = s.out ∧ t.params = s.params)

/-! ### Whole-machine rules -/

/-- 20_memory.md R37 (the parameter is the spec's decision D4, log 4): what `a (+) k` is in each setting. -/
def Obligations.AddressAdditionPerSetting : Prop :=
  ∀ (a : CodeAddr) (k : Nat),
    (addrPlus .wrap a k).toNat = (a.toNat + k) % 256 ∧
    (a.toNat + k < 512 → (addrPlus .fault a k).toNat = a.toNat + k)

/-- 20_memory.md R35: a store puts its byte in its cell and changes no other cell and no other state. -/
def Obligations.StoreChangesOneCell : Prop :=
  ∀ (s : State) (a v : Byte),
    (s.memWrite a v).memRead a = v ∧ (∀ b : Byte, b ≠ a → (s.memWrite a v).memRead b = s.memRead b) ∧
    { s.memWrite a v with mem := s.mem } = s

/-- Two canonical memories that read alike are equal data (the model's own representation, log 17), and a store keeps
the canonical form. -/
def Obligations.CanonicalMemoriesAreEqual : Prop :=
  (∀ m m' : Memory, Memory.wf m = true → Memory.wf m' = true →
    (∀ a : Nat, a < 256 → Memory.read m a = Memory.read m' a) → m = m') ∧
  (∀ (s : State) (a v : Byte), Memory.wf s.mem = true → Memory.wf (s.memWrite a v).mem = true)

/-- 20_memory.md R31. Only PUSH and CALL write memory, and only the cell at the decremented SP. A step reads only the
bytes of its own instruction and, for POP and RET, the cell at SP: changing any other cell beforehand changes nothing
but that cell. -/
def Obligations.OnlyFetchAndStackReachMemory : Prop :=
  (∀ (s t : State) (c : Byte), step s = .next t → t.memRead c ≠ s.memRead c →
    c = s.decSp.sp ∧ ∃ i, fetch s = .ok i ∧ writesStack i = true) ∧
  (∀ (s t : State) (i : Instr) (c v : Byte), step s = .next t → fetch s = .ok i →
    (∀ j : Nat, j < i.width → (s.pcPlus j).setWidth 8 ≠ c) → (readsStack i = true → s.sp ≠ c) →
    ∃ u, step (s.memWrite c v) = .next u ∧ (∀ b : Byte, b ≠ c → u.memRead b = t.memRead b) ∧
      { u with mem := t.mem } = t)

/-- 20_memory.md R43 (the spec's decision D14, log 9): a PUSH that stores where pc goes next is seen by the very next
fetch. -/
def Obligations.StoreIsSeenByTheNextFetch : Prop :=
  ∀ (s : State) (a : Byte) (ra : Reg), a.toNat = ra.val → (s.pcPlus 2).toNat = s.decSp.sp.toNat →
    ∃ t, exec (.push a) s = .next t ∧ fetchByte t t.pc = .ok (s.decSp.reg ra)

/-- 10_state.md R16: an instruction writes no register outside its row of the table. -/
def Obligations.RegistersWrittenAreTheTables : Prop :=
  ∀ (i : Instr) (s t : State) (r : Reg), exec i s = .next t → t.reg r ≠ s.reg r → r.val ∈ writtenRegs i

/-- 10_state.md R16: an instruction reads no register outside its row of the table: another value there beforehand
changes nothing but that register, and not even that where the instruction writes it. -/
def Obligations.RegistersReadAreTheTables : Prop :=
  ∀ (i : Instr) (s t : State) (r : Reg) (v : Byte), i.wellFormed = true → exec i s = .next t →
    r.val ∉ readRegs s.fl i →
    ∃ u, exec i (s.setReg r v) = .next u ∧ (∀ j : Reg, j ≠ r → u.reg j = t.reg j) ∧
      u.reg r = (if r.val ∈ writtenRegs i then t.reg r else v) ∧ { u with regs := t.regs } = t

/-- 10_state.md R21: FL is E at reset; a step that changes FL runs a CMP of two legal registers and raises no error, so
no error changes FL, a CMP's own among them; an instruction other than JEQ and JNE does the
same whatever FL is; and at FL = E a JEQ jumps and a JNE falls through. -/
def Obligations.FlWrittenByCmpReadByJumps : Prop :=
  State.reset.fl = .equal ∧
  (∀ s t : State, step s = .next t → t.fl ≠ s.fl →
    ∃ a b, fetch s = .ok (.cmp a b) ∧ (Instr.cmp a b).wellFormed = true ∧ t.status = .running) ∧
  (∀ (i : Instr) (s t : State) (f : Flag), readsFlag i = false → exec i s = .next t →
    ∃ u, exec i { s with fl := f } = .next u ∧ { u with fl := t.fl } = t) ∧
  (∀ (s : State) (a : Byte) (ra : Reg), a.toNat = ra.val → s.fl = .equal →
    (∃ t, exec (.jeq a) s = .next t ∧ t.pc = (s.reg ra).setWidth 9) ∧
    ∃ t, exec (.jne a) s = .next t ∧ t.pc = s.pcPlus 2)

/-- 10_state.md R23 (the log is the spec's decision D2, log 11): a step either leaves `out` or appends one byte, the
register a PRN names; and nothing reads `out` or the terminator. -/
def Obligations.OutputOnlyByPrnAndReadByNothing : Prop :=
  (∀ s t : State, step s = .next t → t.out ≠ s.out →
    ∃ (a : Byte) (ra : Reg), fetch s = .ok (.prn a) ∧ a.toNat = ra.val ∧ t.out = s.out ++ [s.reg ra]) ∧
  (∀ (s t : State) (o term : List Byte), step s = .next t →
    ∃ u, step { s with out := o, params := { s.params with prnTerminator := term } } = .next u ∧
      { u with out := t.out, params := t.params } = t ∧ s.out ++ u.out.drop o.length = t.out)

/-- The parameters of an instance never change (the model's own constant field, log 2; 00_scope.md R6). -/
def Obligations.ParametersNeverChange : Prop :=
  ∀ s t : State, step s = .next t → t.params = s.params

/-- The machine's invariant (Safety.lean) is kept by every step, from every state that meets it: the memory stays
canonical, the opcode map distinct, pc in its range (the spec's decision D4, log 4), and a terminal status is explained
by the state (that an error keeps pc at its instruction, and memory as it was, is the spec's decision D8, log 6). -/
def Obligations.StepKeepsTheInvariant : Prop :=
  ∀ s t : State, s.Inv → step s = .next t → t.Inv

/-! ### The run loop -/

/-- 40_control_unit.md R70, R71 (fuel is the spec's decision D20, log 16): the loop stops only in a terminal state, with
that state's reason, which more fuel does not change; where the fuel runs out the state is Running; no instruction is
refused. -/
def Obligations.RunStopsOnlyAtTermination : Prop :=
  (∀ (fuel : Nat) (s t : State) (r : Fault), run fuel s = .terminated r t →
    terminationReason t.status = some r ∧ ∀ more : Nat, run (fuel + more) s = .terminated r t) ∧
  (∀ (fuel : Nat) (s t : State), run fuel s = .outOfFuel t → t.status = .running) ∧
  (∀ (fuel : Nat) (s t : State) (r : Refusal), run fuel s ≠ .refused r t)

/-- Every launched run that ends gives the termination reason of its final status, in a state that meets the invariant,
so that the reason is explained by the state, and whose parameters are the launch's. What the invariant says of an
error's state is the spec's decision D8 (log 6), of pc's range D4 (log 4); the launch's limit is D15 (log 14), the fuel
D20 (log 16). -/
def Obligations.LaunchedRunEndsInTheInvariant : Prop :=
  ∀ (p : Params) (img : List Byte) (s t : State) (r : Fault) (fuel : Nat), p.wellFormed = true →
    launch p img = .ok s → run fuel s = .terminated r t →
    terminationReason t.status = some r ∧ t.Inv ∧ t.params = p ∧ (t.endedNormally ↔ r = .halted)
end

