-- ==== Sys2Proof/Laws/State.lean ====
section
/-! SUPPORT. One lemma per field per update of State, true by rfl, so that no proof unfolds a record update; and what
the accessors read after an update. -/

namespace Sys2Proof.Machine

/-! ### memWrite -/

@[simp] theorem State.memWrite_mem (s : State) (a v : Byte) : (s.memWrite a v).mem = Memory.write s.mem a.toNat v := rfl
@[simp] theorem State.memWrite_regs (s : State) (a v : Byte) : (s.memWrite a v).regs = s.regs := rfl
@[simp] theorem State.memWrite_pc (s : State) (a v : Byte) : (s.memWrite a v).pc = s.pc := rfl
@[simp] theorem State.memWrite_fl (s : State) (a v : Byte) : (s.memWrite a v).fl = s.fl := rfl
@[simp] theorem State.memWrite_status (s : State) (a v : Byte) : (s.memWrite a v).status = s.status := rfl
@[simp] theorem State.memWrite_out (s : State) (a v : Byte) : (s.memWrite a v).out = s.out := rfl
@[simp] theorem State.memWrite_params (s : State) (a v : Byte) : (s.memWrite a v).params = s.params := rfl
@[simp] theorem State.memWrite_reg (s : State) (a v : Byte) (j : Reg) : (s.memWrite a v).reg j = s.reg j := rfl
@[simp] theorem State.memWrite_sp (s : State) (a v : Byte) : (s.memWrite a v).sp = s.sp := rfl
@[simp] theorem State.memWrite_pcPlus (s : State) (a v : Byte) (k : Nat) : (s.memWrite a v).pcPlus k = s.pcPlus k := rfl

/-! ### setReg -/

@[simp] theorem State.setReg_mem (s : State) (i : Reg) (v : Byte) : (s.setReg i v).mem = s.mem := rfl
@[simp] theorem State.setReg_regs (s : State) (i : Reg) (v : Byte) : (s.setReg i v).regs = s.regs.set i v := rfl
@[simp] theorem State.setReg_pc (s : State) (i : Reg) (v : Byte) : (s.setReg i v).pc = s.pc := rfl
@[simp] theorem State.setReg_fl (s : State) (i : Reg) (v : Byte) : (s.setReg i v).fl = s.fl := rfl
@[simp] theorem State.setReg_status (s : State) (i : Reg) (v : Byte) : (s.setReg i v).status = s.status := rfl
@[simp] theorem State.setReg_out (s : State) (i : Reg) (v : Byte) : (s.setReg i v).out = s.out := rfl
@[simp] theorem State.setReg_params (s : State) (i : Reg) (v : Byte) : (s.setReg i v).params = s.params := rfl
@[simp] theorem State.setReg_memRead (s : State) (i : Reg) (v : Byte) (c : Byte) : (s.setReg i v).memRead c = s.memRead c := rfl
@[simp] theorem State.setReg_pcPlus (s : State) (i : Reg) (v : Byte) (k : Nat) : (s.setReg i v).pcPlus k = s.pcPlus k := rfl

/-! ### setSp -/

@[simp] theorem State.setSp_mem (s : State) (v : Byte) : (s.setSp v).mem = s.mem := rfl
@[simp] theorem State.setSp_pc (s : State) (v : Byte) : (s.setSp v).pc = s.pc := rfl
@[simp] theorem State.setSp_fl (s : State) (v : Byte) : (s.setSp v).fl = s.fl := rfl
@[simp] theorem State.setSp_status (s : State) (v : Byte) : (s.setSp v).status = s.status := rfl
@[simp] theorem State.setSp_out (s : State) (v : Byte) : (s.setSp v).out = s.out := rfl
@[simp] theorem State.setSp_params (s : State) (v : Byte) : (s.setSp v).params = s.params := rfl
@[simp] theorem State.setSp_memRead (s : State) (v : Byte) (c : Byte) : (s.setSp v).memRead c = s.memRead c := rfl
@[simp] theorem State.setSp_pcPlus (s : State) (v : Byte) (k : Nat) : (s.setSp v).pcPlus k = s.pcPlus k := rfl

/-! ### advance -/

@[simp] theorem State.advance_mem (s : State) (w : Nat) : (s.advance w).mem = s.mem := rfl
@[simp] theorem State.advance_regs (s : State) (w : Nat) : (s.advance w).regs = s.regs := rfl
@[simp] theorem State.advance_pc (s : State) (w : Nat) : (s.advance w).pc = s.pcPlus w := rfl
@[simp] theorem State.advance_fl (s : State) (w : Nat) : (s.advance w).fl = s.fl := rfl
@[simp] theorem State.advance_status (s : State) (w : Nat) : (s.advance w).status = s.status := rfl
@[simp] theorem State.advance_out (s : State) (w : Nat) : (s.advance w).out = s.out := rfl
@[simp] theorem State.advance_params (s : State) (w : Nat) : (s.advance w).params = s.params := rfl
@[simp] theorem State.advance_reg (s : State) (w : Nat) (j : Reg) : (s.advance w).reg j = s.reg j := rfl
@[simp] theorem State.advance_sp (s : State) (w : Nat) : (s.advance w).sp = s.sp := rfl
@[simp] theorem State.advance_memRead (s : State) (w : Nat) (c : Byte) : (s.advance w).memRead c = s.memRead c := rfl

/-! ### jump -/

@[simp] theorem State.jump_mem (s : State) (v : Byte) : (s.jump v).mem = s.mem := rfl
@[simp] theorem State.jump_regs (s : State) (v : Byte) : (s.jump v).regs = s.regs := rfl
@[simp] theorem State.jump_pc (s : State) (v : Byte) : (s.jump v).pc = v.setWidth 9 := rfl
@[simp] theorem State.jump_fl (s : State) (v : Byte) : (s.jump v).fl = s.fl := rfl
@[simp] theorem State.jump_status (s : State) (v : Byte) : (s.jump v).status = s.status := rfl
@[simp] theorem State.jump_out (s : State) (v : Byte) : (s.jump v).out = s.out := rfl
@[simp] theorem State.jump_params (s : State) (v : Byte) : (s.jump v).params = s.params := rfl
@[simp] theorem State.jump_reg (s : State) (v : Byte) (j : Reg) : (s.jump v).reg j = s.reg j := rfl
@[simp] theorem State.jump_sp (s : State) (v : Byte) : (s.jump v).sp = s.sp := rfl
@[simp] theorem State.jump_memRead (s : State) (v : Byte) (c : Byte) : (s.jump v).memRead c = s.memRead c := rfl

/-! ### emit -/

@[simp] theorem State.emit_mem (s : State) (v : Byte) : (s.emit v).mem = s.mem := rfl
@[simp] theorem State.emit_regs (s : State) (v : Byte) : (s.emit v).regs = s.regs := rfl
@[simp] theorem State.emit_pc (s : State) (v : Byte) : (s.emit v).pc = s.pc := rfl
@[simp] theorem State.emit_fl (s : State) (v : Byte) : (s.emit v).fl = s.fl := rfl
@[simp] theorem State.emit_status (s : State) (v : Byte) : (s.emit v).status = s.status := rfl
@[simp] theorem State.emit_out (s : State) (v : Byte) : (s.emit v).out = s.out ++ [v] := rfl
@[simp] theorem State.emit_params (s : State) (v : Byte) : (s.emit v).params = s.params := rfl
@[simp] theorem State.emit_reg (s : State) (v : Byte) (j : Reg) : (s.emit v).reg j = s.reg j := rfl
@[simp] theorem State.emit_sp (s : State) (v : Byte) : (s.emit v).sp = s.sp := rfl
@[simp] theorem State.emit_memRead (s : State) (v : Byte) (c : Byte) : (s.emit v).memRead c = s.memRead c := rfl
@[simp] theorem State.emit_pcPlus (s : State) (v : Byte) (k : Nat) : (s.emit v).pcPlus k = s.pcPlus k := rfl

/-! ### halt -/

@[simp] theorem State.halt_mem (s : State) : (s.halt).mem = s.mem := rfl
@[simp] theorem State.halt_regs (s : State) : (s.halt).regs = s.regs := rfl
@[simp] theorem State.halt_pc (s : State) : (s.halt).pc = s.pc := rfl
@[simp] theorem State.halt_fl (s : State) : (s.halt).fl = s.fl := rfl
@[simp] theorem State.halt_status (s : State) : (s.halt).status = .halted := rfl
@[simp] theorem State.halt_out (s : State) : (s.halt).out = s.out := rfl
@[simp] theorem State.halt_params (s : State) : (s.halt).params = s.params := rfl
@[simp] theorem State.halt_reg (s : State) (j : Reg) : (s.halt).reg j = s.reg j := rfl
@[simp] theorem State.halt_sp (s : State) : (s.halt).sp = s.sp := rfl
@[simp] theorem State.halt_memRead (s : State) (c : Byte) : (s.halt).memRead c = s.memRead c := rfl
@[simp] theorem State.halt_pcPlus (s : State) (k : Nat) : (s.halt).pcPlus k = s.pcPlus k := rfl

/-! ### raise -/

@[simp] theorem State.raise_mem (s : State) (e : CoreError) : (s.raise e).mem = s.mem := rfl
@[simp] theorem State.raise_regs (s : State) (e : CoreError) : (s.raise e).regs = s.regs := rfl
@[simp] theorem State.raise_pc (s : State) (e : CoreError) : (s.raise e).pc = s.pc := rfl
@[simp] theorem State.raise_fl (s : State) (e : CoreError) : (s.raise e).fl = s.fl := rfl
@[simp] theorem State.raise_status (s : State) (e : CoreError) : (s.raise e).status = .faulted e := rfl
@[simp] theorem State.raise_out (s : State) (e : CoreError) : (s.raise e).out = s.out := rfl
@[simp] theorem State.raise_params (s : State) (e : CoreError) : (s.raise e).params = s.params := rfl
@[simp] theorem State.raise_reg (s : State) (e : CoreError) (j : Reg) : (s.raise e).reg j = s.reg j := rfl
@[simp] theorem State.raise_sp (s : State) (e : CoreError) : (s.raise e).sp = s.sp := rfl
@[simp] theorem State.raise_memRead (s : State) (e : CoreError) (c : Byte) : (s.raise e).memRead c = s.memRead c := rfl
@[simp] theorem State.raise_pcPlus (s : State) (e : CoreError) (k : Nat) : (s.raise e).pcPlus k = s.pcPlus k := rfl

/-! ### setFl -/

@[simp] theorem State.setFl_mem (s : State) (f : Flag) : (s.setFl f).mem = s.mem := rfl
@[simp] theorem State.setFl_regs (s : State) (f : Flag) : (s.setFl f).regs = s.regs := rfl
@[simp] theorem State.setFl_pc (s : State) (f : Flag) : (s.setFl f).pc = s.pc := rfl
@[simp] theorem State.setFl_fl (s : State) (f : Flag) : (s.setFl f).fl = f := rfl
@[simp] theorem State.setFl_status (s : State) (f : Flag) : (s.setFl f).status = s.status := rfl
@[simp] theorem State.setFl_out (s : State) (f : Flag) : (s.setFl f).out = s.out := rfl
@[simp] theorem State.setFl_params (s : State) (f : Flag) : (s.setFl f).params = s.params := rfl
@[simp] theorem State.setFl_reg (s : State) (f : Flag) (j : Reg) : (s.setFl f).reg j = s.reg j := rfl
@[simp] theorem State.setFl_sp (s : State) (f : Flag) : (s.setFl f).sp = s.sp := rfl
@[simp] theorem State.setFl_memRead (s : State) (f : Flag) (c : Byte) : (s.setFl f).memRead c = s.memRead c := rfl
@[simp] theorem State.setFl_pcPlus (s : State) (f : Flag) (k : Nat) : (s.setFl f).pcPlus k = s.pcPlus k := rfl

/-! ### decSp -/

@[simp] theorem State.decSp_mem (s : State) : (s.decSp).mem = s.mem := rfl
@[simp] theorem State.decSp_pc (s : State) : (s.decSp).pc = s.pc := rfl
@[simp] theorem State.decSp_fl (s : State) : (s.decSp).fl = s.fl := rfl
@[simp] theorem State.decSp_status (s : State) : (s.decSp).status = s.status := rfl
@[simp] theorem State.decSp_out (s : State) : (s.decSp).out = s.out := rfl
@[simp] theorem State.decSp_params (s : State) : (s.decSp).params = s.params := rfl
@[simp] theorem State.decSp_memRead (s : State) (c : Byte) : (s.decSp).memRead c = s.memRead c := rfl
@[simp] theorem State.decSp_pcPlus (s : State) (k : Nat) : (s.decSp).pcPlus k = s.pcPlus k := rfl

/-! ### incSp -/

@[simp] theorem State.incSp_mem (s : State) : (s.incSp).mem = s.mem := rfl
@[simp] theorem State.incSp_pc (s : State) : (s.incSp).pc = s.pc := rfl
@[simp] theorem State.incSp_fl (s : State) : (s.incSp).fl = s.fl := rfl
@[simp] theorem State.incSp_status (s : State) : (s.incSp).status = s.status := rfl
@[simp] theorem State.incSp_out (s : State) : (s.incSp).out = s.out := rfl
@[simp] theorem State.incSp_params (s : State) : (s.incSp).params = s.params := rfl
@[simp] theorem State.incSp_memRead (s : State) (c : Byte) : (s.incSp).memRead c = s.memRead c := rfl
@[simp] theorem State.incSp_pcPlus (s : State) (k : Nat) : (s.incSp).pcPlus k = s.pcPlus k := rfl

/-! ### storeAtSp -/

@[simp] theorem State.storeAtSp_regs (s : State) (v : Byte) : (s.storeAtSp v).regs = s.regs := rfl
@[simp] theorem State.storeAtSp_pc (s : State) (v : Byte) : (s.storeAtSp v).pc = s.pc := rfl
@[simp] theorem State.storeAtSp_fl (s : State) (v : Byte) : (s.storeAtSp v).fl = s.fl := rfl
@[simp] theorem State.storeAtSp_status (s : State) (v : Byte) : (s.storeAtSp v).status = s.status := rfl
@[simp] theorem State.storeAtSp_out (s : State) (v : Byte) : (s.storeAtSp v).out = s.out := rfl
@[simp] theorem State.storeAtSp_params (s : State) (v : Byte) : (s.storeAtSp v).params = s.params := rfl
@[simp] theorem State.storeAtSp_reg (s : State) (v : Byte) (j : Reg) : (s.storeAtSp v).reg j = s.reg j := rfl
@[simp] theorem State.storeAtSp_sp (s : State) (v : Byte) : (s.storeAtSp v).sp = s.sp := rfl
@[simp] theorem State.storeAtSp_pcPlus (s : State) (v : Byte) (k : Nat) : (s.storeAtSp v).pcPlus k = s.pcPlus k := rfl

/-! ### pushValue -/

@[simp] theorem State.pushValue_pc (s : State) (v : Byte) : (s.pushValue v).pc = s.pc := rfl
@[simp] theorem State.pushValue_fl (s : State) (v : Byte) : (s.pushValue v).fl = s.fl := rfl
@[simp] theorem State.pushValue_status (s : State) (v : Byte) : (s.pushValue v).status = s.status := rfl
@[simp] theorem State.pushValue_out (s : State) (v : Byte) : (s.pushValue v).out = s.out := rfl
@[simp] theorem State.pushValue_params (s : State) (v : Byte) : (s.pushValue v).params = s.params := rfl
@[simp] theorem State.pushValue_pcPlus (s : State) (v : Byte) (k : Nat) : (s.pushValue v).pcPlus k = s.pcPlus k := rfl

/-! ### Register reads after register writes -/

theorem State.setReg_reg (s : State) (i j : Reg) (v : Byte) :
    (s.setReg i v).reg j = if i = j then v else s.reg j := by
  simp [State.setReg, State.reg, Vector.getElem_set, Fin.ext_iff]

@[simp] theorem State.setReg_reg_same (s : State) (i : Reg) (v : Byte) : (s.setReg i v).reg i = v := by
  simp [State.setReg_reg]

theorem State.setReg_reg_other (s : State) {i j : Reg} (v : Byte) (h : i ≠ j) : (s.setReg i v).reg j = s.reg j := by
  simp [State.setReg_reg, h]

@[simp] theorem State.reg_spIndex (s : State) : s.reg spIndex = s.sp := rfl

theorem State.setSp_reg (s : State) (j : Reg) (v : Byte) :
    (s.setSp v).reg j = if spIndex = j then v else s.reg j := State.setReg_reg s spIndex j v

@[simp] theorem State.setSp_sp (s : State) (v : Byte) : (s.setSp v).sp = v := State.setReg_reg_same s spIndex v

theorem State.setReg_sp (s : State) (i : Reg) (v : Byte) :
    (s.setReg i v).sp = if i = spIndex then v else s.sp := State.setReg_reg s i spIndex v

@[simp] theorem State.setReg_sp_same (s : State) (v : Byte) : (s.setReg spIndex v).sp = v := by
  simp [State.setReg_sp]

theorem State.setReg_sp_other (s : State) {i : Reg} (v : Byte) (h : i ≠ spIndex) : (s.setReg i v).sp = s.sp := by
  simp [State.setReg_sp, h]

@[simp] theorem State.decSp_sp (s : State) : s.decSp.sp = s.sp - 1 := by
  apply BitVec.eq_of_toNat_eq
  simp [State.decSp, trunc8, BitVec.toNat_sub]
  omega

@[simp] theorem State.incSp_sp (s : State) : s.incSp.sp = s.sp + 1 := by
  apply BitVec.eq_of_toNat_eq
  simp [State.incSp, trunc8, BitVec.toNat_add]

theorem State.decSp_reg_other (s : State) {j : Reg} (h : j ≠ spIndex) : s.decSp.reg j = s.reg j :=
  State.setReg_reg_other s _ (Ne.symm h)

theorem State.incSp_reg_other (s : State) {j : Reg} (h : j ≠ spIndex) : s.incSp.reg j = s.reg j :=
  State.setReg_reg_other s _ (Ne.symm h)

@[simp] theorem State.pushValue_sp (s : State) (v : Byte) : (s.pushValue v).sp = s.sp - 1 := State.decSp_sp s

theorem State.pushValue_reg_other (s : State) (v : Byte) {j : Reg} (h : j ≠ spIndex) :
    (s.pushValue v).reg j = s.reg j := State.decSp_reg_other s h

@[simp] theorem State.popValue_fst (s : State) : s.popValue.1 = s.memRead s.sp := rfl
@[simp] theorem State.popValue_snd (s : State) : s.popValue.2 = s.incSp := rfl

end Sys2Proof.Machine
end

