-- ==== Sys2Proof/Laws/Memory.lean ====
section
/-! SUPPORT. The laws of memory: a read after a write, the canonical form, and loading. -/

namespace Sys2Proof.Machine

theorem Memory.read_erase (m : Memory) (a b : Nat) :
    Memory.read (Memory.erase a m) b = if a = b then unlistedByte else Memory.read m b := by
  induction m with
  | nil => simp [Memory.erase, Memory.read]
  | cons c rest ih =>
    obtain ⟨k, w⟩ := c
    simp only [Memory.erase, Memory.read]
    split
    · subst k
      by_cases hab : a = b <;> simp_all
    · simp only [Memory.read, ih]
      by_cases hab : a = b
      · subst b
        simp_all
      · simp [hab]

theorem Memory.read_insertCell (m : Memory) (a b : Nat) (v : Byte)
    (hna : ∀ c ∈ m, c.1 ≠ a) :
    Memory.read (Memory.insertCell a v m) b = if a = b then v else Memory.read m b := by

  induction m with
  | nil => simp [Memory.insertCell, Memory.read]
  | cons c rest ih =>
    obtain ⟨k, w⟩ := c
    have hk : k ≠ a := hna (k, w) (by simp)
    have ih := ih fun c hc => hna c (by simp [hc])
    simp only [Memory.insertCell]
    split
    · simp [Memory.read]
    · simp only [Memory.read, ih]
      split <;> simp_all
      intro hab
      simp_all

theorem Memory.erase_key_ne (m : Memory) (a : Nat) : ∀ c ∈ Memory.erase a m, c.1 ≠ a := by
  induction m with
  | nil => simp [Memory.erase]
  | cons c rest ih =>
    obtain ⟨k, w⟩ := c
    simp only [Memory.erase]
    split
    · exact ih
    · intro c hc
      rcases List.mem_cons.1 hc with rfl | hc
      · assumption
      · exact ih c hc

/-- A read after a write: the byte written there, and what was there before everywhere else. For EVERY list, canonical
or not. -/
theorem Memory.read_write (m : Memory) (a b : Nat) (v : Byte) :
    Memory.read (Memory.write m a v) b = if a = b then v else Memory.read m b := by
  unfold Memory.write
  split
  · simp_all [Memory.read_erase]
  · rw [Memory.read_insertCell _ _ _ _ (Memory.erase_key_ne m a), Memory.read_erase]
    split <;> rfl

/-! ### The canonical form -/

theorem Memory.wfFrom_mono {lo lo' : Nat} {m : Memory} (h : Memory.wfFrom lo m = true) (hl : lo' ≤ lo) :
    Memory.wfFrom lo' m = true := by
  cases m with
  | nil => rfl
  | cons c rest =>
    simp only [Memory.wfFrom, Bool.and_eq_true, decide_eq_true_eq] at h ⊢
    exact ⟨⟨⟨by omega, h.1.1.2⟩, h.1.2⟩, h.2⟩

theorem Memory.wfFrom_erase {lo : Nat} {m : Memory} (a : Nat) (h : Memory.wfFrom lo m = true) :
    Memory.wfFrom lo (Memory.erase a m) = true := by
  induction m generalizing lo with
  | nil => rfl
  | cons c rest ih =>
    obtain ⟨k, w⟩ := c
    simp only [Memory.wfFrom, Bool.and_eq_true, decide_eq_true_eq] at h
    simp only [Memory.erase]
    split
    · exact Memory.wfFrom_mono (ih h.2) (by omega)
    · simp only [Memory.wfFrom, Bool.and_eq_true, decide_eq_true_eq]
      exact ⟨h.1, ih h.2⟩

theorem Memory.wfFrom_insertCell {lo a : Nat} {v : Byte} {m : Memory} (h : Memory.wfFrom lo m = true) (hlo : lo ≤ a)
    (ha : a < 256) (hv : v ≠ unlistedByte) (hna : ∀ c ∈ m, c.1 ≠ a) :
    Memory.wfFrom lo (Memory.insertCell a v m) = true := by
  induction m generalizing lo with
  | nil => simp [Memory.insertCell, Memory.wfFrom, hlo, ha, hv]
  | cons c rest ih =>
    obtain ⟨k, w⟩ := c
    have hk : k ≠ a := hna (k, w) (by simp)
    simp only [Memory.wfFrom, Bool.and_eq_true, decide_eq_true_eq] at h
    simp only [Memory.insertCell]
    split
    · simp only [Memory.wfFrom, Bool.and_eq_true, decide_eq_true_eq]
      exact ⟨⟨⟨hlo, ha⟩, hv⟩, ⟨⟨by omega, h.1.1.2⟩, h.1.2⟩, h.2⟩
    · simp only [Memory.wfFrom, Bool.and_eq_true, decide_eq_true_eq]
      exact ⟨h.1, ih h.2 (by omega) fun c hc => hna c (by simp [hc])⟩

/-- A write below 256 keeps the canonical form. -/
theorem Memory.wf_write {m : Memory} {a : Nat} (v : Byte) (h : Memory.wf m = true) (ha : a < 256) :
    Memory.wf (Memory.write m a v) = true := by
  unfold Memory.write Memory.wf at *
  split
  · exact Memory.wfFrom_erase a h
  · exact Memory.wfFrom_insertCell (Memory.wfFrom_erase a h) (Nat.zero_le a) ha ‹_› (Memory.erase_key_ne m a)

/-- Loading bytes that end at or below 256 keeps the canonical form. -/
theorem Memory.wf_load {m : Memory} {a : Nat} {vs : List Byte} (h : Memory.wf m = true) (ha : a + vs.length ≤ 256) :
    Memory.wf (Memory.load m a vs) = true := by
  induction vs generalizing m a with
  | nil => exact h
  | cons v vs ih =>
    simp only [List.length_cons] at ha
    exact ih (Memory.wf_write v h (by omega)) (by omega)

/-- Below its first address a canonical memory lists nothing. -/
theorem Memory.read_below {lo a : Nat} {m : Memory} (h : Memory.wfFrom lo m = true) (ha : a < lo) :
    Memory.read m a = unlistedByte := by
  induction m generalizing lo with
  | nil => rfl
  | cons c rest ih =>
    obtain ⟨k, w⟩ := c
    simp only [Memory.wfFrom, Bool.and_eq_true, decide_eq_true_eq] at h
    simp only [Memory.read]
    rw [if_neg (by omega)]
    exact ih h.2 (by omega)

/-! ### The same, through State -/

theorem State.memRead_memWrite (s : State) (a b : Byte) (v : Byte) :
    (s.memWrite a v).memRead b = if a = b then v else s.memRead b := by
  simp [State.memRead, Memory.read_write, BitVec.toNat_inj]

@[simp] theorem State.memRead_memWrite_same (s : State) (a v : Byte) : (s.memWrite a v).memRead a = v := by
  simp [State.memRead_memWrite]

theorem State.memRead_memWrite_other (s : State) {a b : Byte} (v : Byte) (h : a ≠ b) :
    (s.memWrite a v).memRead b = s.memRead b := by
  simp [State.memRead_memWrite, h]

theorem State.storeAtSp_memRead (s : State) (v b : Byte) :
    (s.storeAtSp v).memRead b = if s.sp = b then v else s.memRead b := State.memRead_memWrite s s.sp b v

theorem State.pushValue_memRead (s : State) (v b : Byte) :
    (s.pushValue v).memRead b = if s.sp - 1 = b then v else s.memRead b := by
  rw [State.pushValue, State.storeAtSp_memRead, State.decSp_sp]
  rfl

theorem State.wf_memWrite {s : State} (a v : Byte) (h : Memory.wf s.mem = true) :
    Memory.wf (s.memWrite a v).mem = true := Memory.wf_write v h a.isLt

theorem State.reset_mem_wf : Memory.wf State.reset.mem = true := rfl

end Sys2Proof.Machine
end

