-- ==== Sys2Proof/Laws/Ops.lean ====
section
/-! SUPPORT. One lemma per shared operation that says all it can do: the operand check, address arithmetic, the
fetch. -/

namespace Sys2Proof.Machine

/-! ### The operand check -/

theorem regOf_eq_some {v : Byte} {a : Reg} : regOf v = some a ↔ v.toNat = a.val := by
  unfold regOf
  split
  · simp [Fin.ext_iff]
  · have := a.isLt
    simp
    omega

theorem regOf_eq_none {v : Byte} : regOf v = none ↔ 8 ≤ v.toNat := by
  unfold regOf
  split <;> simp <;> omega

theorem withReg_of_legal {v : Byte} {a : Reg} (h : v.toNat = a.val) (s : State) (f : Reg → State) :
    withReg v s f = .next (f a) := by
  simp [withReg, regOf_eq_some.2 h]

theorem withReg_of_illegal {v : Byte} (h : 8 ≤ v.toNat) (s : State) (f : Reg → State) :
    withReg v s f = .next (s.raise (.boundsError .register v.toNat s.pc)) := by
  simp [withReg, regOf_eq_none.2 h, registerError]

/-- All a one-register instruction can do. -/
theorem withReg_cases (v : Byte) (s : State) (f : Reg → State) :
    (∃ a : Reg, v.toNat = a.val ∧ withReg v s f = .next (f a)) ∨
    (8 ≤ v.toNat ∧ withReg v s f = .next (s.raise (.boundsError .register v.toNat s.pc))) := by
  by_cases h : v.toNat < 8
  · exact .inl ⟨⟨v.toNat, h⟩, rfl, withReg_of_legal rfl s f⟩
  · exact .inr ⟨by omega, withReg_of_illegal (by omega) s f⟩

theorem withRegs_of_legal {v w : Byte} {a b : Reg} (hv : v.toNat = a.val) (hw : w.toNat = b.val) (s : State)
    (f : Reg → Reg → State) : withRegs v w s f = .next (f a b) := by
  simp [withRegs, regOf_eq_some.2 hv, regOf_eq_some.2 hw]

theorem withRegs_of_illegal_left {v : Byte} (h : 8 ≤ v.toNat) (w : Byte) (s : State) (f : Reg → Reg → State) :
    withRegs v w s f = .next (s.raise (.boundsError .register v.toNat s.pc)) := by
  simp [withRegs, regOf_eq_none.2 h, registerError]

theorem withRegs_of_illegal_right {v w : Byte} {a : Reg} (hv : v.toNat = a.val) (hw : 8 ≤ w.toNat) (s : State)
    (f : Reg → Reg → State) : withRegs v w s f = .next (s.raise (.boundsError .register w.toNat s.pc)) := by
  simp [withRegs, regOf_eq_some.2 hv, regOf_eq_none.2 hw, registerError]

/-- All a two-register instruction can do. -/
theorem withRegs_cases (v w : Byte) (s : State) (f : Reg → Reg → State) :
    (∃ a b : Reg, v.toNat = a.val ∧ w.toNat = b.val ∧ withRegs v w s f = .next (f a b)) ∨
    (8 ≤ v.toNat ∧ withRegs v w s f = .next (s.raise (.boundsError .register v.toNat s.pc))) ∨
    (v.toNat < 8 ∧ 8 ≤ w.toNat ∧ withRegs v w s f = .next (s.raise (.boundsError .register w.toNat s.pc))) := by
  by_cases hv : v.toNat < 8
  · by_cases hw : w.toNat < 8
    · exact .inl ⟨⟨v.toNat, hv⟩, ⟨w.toNat, hw⟩, rfl, rfl, withRegs_of_legal rfl rfl s f⟩
    · exact .inr (.inr ⟨hv, by omega, withRegs_of_illegal_right (a := ⟨v.toNat, hv⟩) rfl (by omega) s f⟩)
  · exact .inr (.inl ⟨by omega, withRegs_of_illegal_left (by omega) w s f⟩)

/-! ### Address arithmetic -/

theorem addrPlus_wrap_toNat (a : CodeAddr) (k : Nat) : (addrPlus .wrap a k).toNat = (a.toNat + k) % 256 := by
  have : (a.toNat + k) % 256 < 256 := Nat.mod_lt _ (by decide)
  simp [addrPlus]
  omega

theorem addrPlus_fault_toNat (a : CodeAddr) (k : Nat) (h : a.toNat + k < 512) :
    (addrPlus .fault a k).toNat = a.toNat + k := by
  simp [addrPlus]
  omega

/-! ### Fetch -/

theorem fetchByte_ok {s : State} {a : CodeAddr} {v : Byte} (h : fetchByte s a = .ok v) :
    v = s.memRead (a.setWidth 8) ∧ (s.params.pcOverflow = .fault → a.toNat ≤ 255) := by
  unfold fetchByte at h
  split at h
  · cases h
  · rename_i hc
    cases h
    refine ⟨rfl, fun hf => ?_⟩
    by_contra hn
    exact hc ⟨hf, by omega⟩

theorem fetchByte_error {s : State} {a : CodeAddr} {e : CoreError} (h : fetchByte s a = .error e) :
    e = .boundsError .memory a.toNat s.pc ∧ s.params.pcOverflow = .fault ∧ 255 < a.toNat := by
  unfold fetchByte at h
  split at h
  · rename_i hc
    cases h
    exact ⟨rfl, hc⟩
  · cases h

/-- All a fetch can do. -/
theorem fetch_cases (s : State) :
    (∃ e, fetchByte s s.pc = .error e ∧ fetch s = .error e) ∨
    (∃ opc, fetchByte s s.pc = .ok opc ∧
      ((s.params.opcodeMap.lookup opc = none ∧ fetch s = .error (.unsupportedOpcode opc s.pc)) ∨
        ∃ mn, s.params.opcodeMap.lookup opc = some mn ∧ fetch s = fetchOperands s mn)) := by
  unfold fetch
  cases h : fetchByte s s.pc with
  | error e => exact .inl ⟨e, rfl, rfl⟩
  | ok opc =>
    refine .inr ⟨opc, rfl, ?_⟩
    cases hl : s.params.opcodeMap.lookup opc with
    | none => exact .inl ⟨rfl, by simp [hl]⟩
    | some mn => exact .inr ⟨mn, rfl, by simp [hl]⟩

/-- Every error of a fetch: the opcode is not in the table, or a byte lies past 255 under `fault`. -/
theorem fetch_error_cases {s : State} {e : CoreError} (h : fetch s = .error e) :
    (∃ opc, fetchByte s s.pc = .ok opc ∧ s.params.opcodeMap.lookup opc = none ∧ e = .unsupportedOpcode opc s.pc) ∨
    (∃ a, (a = s.pc ∨ (s.pc.toNat ≤ 255 ∧ a = s.pcPlus 1) ∨
        (s.pc.toNat ≤ 255 ∧ (s.pcPlus 1).toNat ≤ 255 ∧ a = s.pcPlus 2)) ∧
      s.params.pcOverflow = .fault ∧ 255 < a.toNat ∧ e = .boundsError .memory a.toNat s.pc) := by
  rcases fetch_cases s with ⟨e', he, hf⟩ | ⟨opc, ho, ⟨hl, hf⟩ | ⟨mn, hl, hf⟩⟩
  · rw [hf] at h
    cases h
    obtain ⟨rfl, hp, ha⟩ := fetchByte_error he
    exact .inr ⟨s.pc, .inl rfl, hp, ha, rfl⟩
  · rw [hf] at h
    cases h
    exact .inl ⟨opc, ho, hl, rfl⟩
  · rw [hf] at h
    unfold fetchOperands at h
    split at h
    · cases h
    · split at h
      · rename_i he
        cases h
        obtain ⟨rfl, hp, ha⟩ := fetchByte_error he
        exact .inr ⟨s.pcPlus 1, .inr (.inl ⟨(fetchByte_ok ho).2 hp, rfl⟩), hp, ha, rfl⟩
      · rename_i h1
        split at h
        · cases h
        · split at h
          · rename_i he
            cases h
            obtain ⟨rfl, hp, ha⟩ := fetchByte_error he
            exact .inr ⟨s.pcPlus 2, .inr (.inr ⟨(fetchByte_ok ho).2 hp, (fetchByte_ok h1).2 hp, rfl⟩), hp, ha, rfl⟩
          · cases h

/-! ### Decode -/

theorem Mnemonic.mem_all (mn : Mnemonic) : mn ∈ Mnemonic.all := by cases mn <;> decide

@[simp] theorem Mnemonic.build_mnemonic (op1 op2 : Byte) (mn : Mnemonic) : (mn.build op1 op2).mnemonic = mn := by
  cases mn <;> rfl

theorem Mnemonic.width_cases (mn : Mnemonic) : mn.width = 1 ∨ mn.width = 2 ∨ mn.width = 3 := by
  cases mn <;> decide

theorem Instr.width_cases (i : Instr) : i.width = 1 ∨ i.width = 2 ∨ i.width = 3 := Mnemonic.width_cases i.mnemonic

@[simp] theorem Mnemonic.build_width (op1 op2 : Byte) (mn : Mnemonic) : (mn.build op1 op2).width = mn.width := by
  cases mn <;> rfl

theorem lookup_eq_some_byte {m : OpcodeMap} {opc : Byte} {mn : Mnemonic} (h : m.lookup opc = some mn) :
    m.byte mn = opc := by
  simpa using List.find?_some h

theorem lookup_eq_none {m : OpcodeMap} {opc : Byte} : m.lookup opc = none ↔ ∀ mn, m.byte mn ≠ opc := by
  simp [OpcodeMap.lookup, Mnemonic.mem_all]

end Sys2Proof.Machine
end

