-- ==== Sys2Proof/Laws/Step.lean ====
section
/-! SUPPORT. What a step can do, said once. -/

namespace Sys2Proof.Machine

@[simp] theorem terminationReason_eq_none {st : Status} : terminationReason st = none ↔ st = .running := by
  rcases st with _ | _ | (_ | _) <;> simp [terminationReason]

/-- A running step is its fetch, then the raised error or the execute arm. -/
theorem step_of_running {s : State} (h : s.status = .running) :
    step s = match fetch s with
      | .error e => .next (s.raise e)
      | .ok i => exec i s := by
  cases hf : fetch s <;> simp [step, h, terminationReason, hf]

theorem step_of_fetch_ok {s : State} {i : Instr} (h : s.status = .running) (hf : fetch s = .ok i) :
    step s = exec i s := by
  rw [step_of_running h, hf]

theorem step_of_fetch_error {s : State} {e : CoreError} (h : s.status = .running) (hf : fetch s = .error e) :
    step s = .next (s.raise e) := by
  rw [step_of_running h, hf]

/-- If a step answers next, it ran from Running, and it either raised a fetch error or ran the fetched instruction. -/
theorem step_cases {s t : State} (h : step s = .next t) :
    s.status = .running ∧
      ((∃ e, fetch s = .error e ∧ t = s.raise e) ∨ ∃ i, fetch s = .ok i ∧ exec i s = .next t) := by
  cases hr : terminationReason s.status with
  | some r => simp [step, hr] at h
  | none =>
    have hs := terminationReason_eq_none.1 hr
    refine ⟨hs, ?_⟩
    rw [step_of_running hs] at h
    cases hf : fetch s with
    | error e =>
      rw [hf] at h
      exact .inl ⟨e, rfl, by cases h; rfl⟩
    | ok i =>
      rw [hf] at h
      exact .inr ⟨i, rfl, h⟩

end Sys2Proof.Machine
end

