-- ==== Sys2Proof/Laws/Exec.lean ====
section
/-! SUPPORT. What an execute arm can do, said once for all instructions. -/

namespace Sys2Proof.Machine

/-- The effect of an instruction on its checked registers: what its rule does once the operand check has passed
(40_control_unit.md R66), as a relation between the state before and after. -/
inductive Effect (s : State) : Instr → State → Prop where
  | hlt : Effect s .hlt (s.advance 1).halt
  | ldi {a i : Byte} {ra : Reg} (h : a.toNat = ra.val) : Effect s (.ldi a i) ((s.setReg ra i).advance 3)
  | prn {a : Byte} {ra : Reg} (h : a.toNat = ra.val) : Effect s (.prn a) ((s.emit (s.reg ra)).advance 2)
  | add {a b : Byte} {ra rb : Reg} (ha : a.toNat = ra.val) (hb : b.toNat = rb.val) :
      Effect s (.add a b) ((s.setReg ra (aluAdd (s.reg ra) (s.reg rb))).advance 3)
  | mul {a b : Byte} {ra rb : Reg} (ha : a.toNat = ra.val) (hb : b.toNat = rb.val) :
      Effect s (.mul a b) ((s.setReg ra (aluMul (s.reg ra) (s.reg rb))).advance 3)
  | cmp {a b : Byte} {ra rb : Reg} (ha : a.toNat = ra.val) (hb : b.toNat = rb.val) :
      Effect s (.cmp a b) ((s.setFl (aluCmp (s.reg ra) (s.reg rb))).advance 3)
  | push {a : Byte} {ra : Reg} (h : a.toNat = ra.val) :
      Effect s (.push a) ((s.decSp.storeAtSp (s.decSp.reg ra)).advance 2)
  | pop {a : Byte} {ra : Reg} (h : a.toNat = ra.val) :
      Effect s (.pop a) ((s.setReg ra (s.memRead s.sp)).incSp.advance 2)
  | call {a : Byte} {ra : Reg} (h : a.toNat = ra.val) :
      Effect s (.call a) ((s.pushValue (trunc8 (s.pcPlus 2).toNat)).jump (s.reg ra))
  | ret : Effect s .ret (s.incSp.jump (s.memRead s.sp))
  | jmp {a : Byte} {ra : Reg} (h : a.toNat = ra.val) : Effect s (.jmp a) (s.jump (s.reg ra))
  | jeq {a : Byte} {ra : Reg} (h : a.toNat = ra.val) :
      Effect s (.jeq a) (if s.fl = .equal then s.jump (s.reg ra) else s.advance 2)
  | jne {a : Byte} {ra : Reg} (h : a.toNat = ra.val) :
      Effect s (.jne a) (if s.fl = .equal then s.advance 2 else s.jump (s.reg ra))

/-- All `exec` can do: the effect, or the BoundsError of the first register operand past 7. -/
theorem exec_cases (i : Instr) (s : State) :
    (i.registerOperands.find? (fun r => decide (8 ≤ r.toNat)) = none ∧ ∃ t, Effect s i t ∧ exec i s = .next t) ∨
    (∃ v, i.registerOperands.find? (fun r => decide (8 ≤ r.toNat)) = some v ∧
      exec i s = .next (s.raise (.boundsError .register v.toNat s.pc))) := by
  have one : ∀ (v : Byte) (f : Reg → State) (P : State → Prop), (∀ a : Reg, v.toNat = a.val → P (f a)) →
      ([v].find? (fun r => decide (8 ≤ r.toNat)) = none ∧ ∃ t, P t ∧ withReg v s f = .next t) ∨
      (∃ w, [v].find? (fun r => decide (8 ≤ r.toNat)) = some w ∧
        withReg v s f = .next (s.raise (.boundsError .register w.toNat s.pc))) := by
    intro v f P hP
    rcases withReg_cases v s f with ⟨a, ha, h⟩ | ⟨hv, h⟩
    · have := a.isLt
      exact .inl ⟨by simp; omega, _, hP a ha, h⟩
    · exact .inr ⟨v, by simp; omega, h⟩
  have two : ∀ (v w : Byte) (f : Reg → Reg → State) (P : State → Prop),
      (∀ a b : Reg, v.toNat = a.val → w.toNat = b.val → P (f a b)) →
      ([v, w].find? (fun r => decide (8 ≤ r.toNat)) = none ∧ ∃ t, P t ∧ withRegs v w s f = .next t) ∨
      (∃ x, [v, w].find? (fun r => decide (8 ≤ r.toNat)) = some x ∧
        withRegs v w s f = .next (s.raise (.boundsError .register x.toNat s.pc))) := by
    intro v w f P hP
    rcases withRegs_cases v w s f with ⟨a, b, ha, hb, h⟩ | ⟨hv, h⟩ | ⟨hv, hw, h⟩
    · have := a.isLt
      have := b.isLt
      exact .inl ⟨by simp; omega, _, hP a b ha hb, h⟩
    · exact .inr ⟨v, by simp [List.find?, hv], h⟩
    · exact .inr ⟨w, by simp [List.find?, hw, Nat.not_le.2 hv], h⟩
  cases i with
  | hlt => exact .inl ⟨rfl, _, .hlt, rfl⟩
  | ldi r i => exact one r _ (Effect s (.ldi r i)) fun a h => .ldi h
  | prn r => exact one r _ (Effect s (.prn r)) fun a h => .prn h
  | add a b => exact two a b _ (Effect s (.add a b)) fun _ _ ha hb => .add ha hb
  | mul a b => exact two a b _ (Effect s (.mul a b)) fun _ _ ha hb => .mul ha hb
  | cmp a b => exact two a b _ (Effect s (.cmp a b)) fun _ _ ha hb => .cmp ha hb
  | push r => exact one r _ (Effect s (.push r)) fun a h => .push h
  | pop r => exact one r _ (Effect s (.pop r)) fun a h => .pop h
  | call r => exact one r _ (Effect s (.call r)) fun a h => .call h
  | ret => exact .inl ⟨rfl, _, .ret, rfl⟩
  | jmp r => exact one r _ (Effect s (.jmp r)) fun a h => .jmp h
  | jeq r => exact one r _ (Effect s (.jeq r)) fun a h => by simpa [State.flagEqual] using Effect.jeq (s := s) h
  | jne r => exact one r _ (Effect s (.jne r)) fun a h => by simpa [State.flagEqual] using Effect.jne (s := s) h

/-- Every effect of an instruction is the next state `exec` answers. -/
theorem exec_of_effect {i : Instr} {s t : State} (h : Effect s i t) : exec i s = .next t := by
  cases h with
  | hlt => rfl
  | ldi h => exact withReg_of_legal h s _
  | prn h => exact withReg_of_legal h s _
  | add ha hb => exact withRegs_of_legal ha hb s _
  | mul ha hb => exact withRegs_of_legal ha hb s _
  | cmp ha hb => exact withRegs_of_legal ha hb s _
  | push h => exact withReg_of_legal h s _
  | pop h => exact withReg_of_legal h s _
  | call h => exact withReg_of_legal h s _
  | ret => rfl
  | jmp h => exact withReg_of_legal h s _
  | jeq h => simpa [exec, execJeq, State.flagEqual] using withReg_of_legal h s _
  | jne h => simpa [exec, execJne, State.flagEqual] using withReg_of_legal h s _

end Sys2Proof.Machine
end

