-- ==== Sys2Proof/Laws/PerInstr.lean ====
section
/-! SUPPORT. Families of lemmas with one lemma per instruction. -/

namespace Sys2Proof.Laws.EncodedWidth

/-- The encoding of an instruction has as many bytes as its table entry's width, under every `OPCODE_MAP`
(30_encoding.md R46, R50). -/
def Statement (i : Instr) : Prop := ∀ m : OpcodeMap, (encode m i).length = i.width

theorem hlt : Statement .hlt := fun _ => rfl
theorem ldi (reg imm8 : Byte) : Statement (.ldi reg imm8) := fun _ => rfl
theorem prn (reg : Byte) : Statement (.prn reg) := fun _ => rfl
theorem add (regA regB : Byte) : Statement (.add regA regB) := fun _ => rfl
theorem mul (regA regB : Byte) : Statement (.mul regA regB) := fun _ => rfl
theorem cmp (regA regB : Byte) : Statement (.cmp regA regB) := fun _ => rfl
theorem push (reg : Byte) : Statement (.push reg) := fun _ => rfl
theorem pop (reg : Byte) : Statement (.pop reg) := fun _ => rfl
theorem call (reg : Byte) : Statement (.call reg) := fun _ => rfl
theorem ret : Statement .ret := fun _ => rfl
theorem jmp (reg : Byte) : Statement (.jmp reg) := fun _ => rfl
theorem jeq (reg : Byte) : Statement (.jeq reg) := fun _ => rfl
theorem jne (reg : Byte) : Statement (.jne reg) := fun _ => rfl

end Sys2Proof.Laws.EncodedWidth
end

