-- ==== Sys2Proof/Tests/Slice0.lean ====
section
/-! SUPPORT. The model's own tests. Expected results are the spec's (95_test_vectors.md, the vector named at each test,
or the rule named there), never the model's. Then the witnesses: for each statement with hypotheses, a concrete state
and operands that meet them. -/

namespace Sys2Proof.Tests.Slice0

open Sys2Proof.Machine

/-! ### Helpers -/

/-- A Running state with an instruction's bytes at pc. -/
def atPc (pc : CodeAddr) (bytes : List Byte) (s : State) : State := placeInstr { s with pc := pc } bytes

/-- The state with PC_OVERFLOW = fault. -/
def underFault (s : State) : State := { s with params := { s.params with pcOverflow := .fault } }

/-- Registers R0 and R1 set. -/
def withR01 (u v : Byte) : State := (State.reset.setReg 0 u).setReg 1 v

/-- The next state of one step, if there is one. -/
def after (s : State) : Option State :=
  match step s with
  | .next t => some t
  | .fault _ => none
  | .refused _ => none

/-! ### WellFormed: an ill-formed term for each check -/

theorem test_wf_accepts : Instr.wellFormed (.add 7 0) = true ∧ Instr.wellFormed (.ldi 7 255) = true ∧
    Instr.wellFormed .hlt = true ∧ Instr.wellFormed .ret = true := by decide
theorem test_wf_refuses_one_register : Instr.wellFormed (.ldi 8 0) = false ∧ Instr.wellFormed (.prn 255) = false ∧
    Instr.wellFormed (.push 8) = false ∧ Instr.wellFormed (.pop 9) = false ∧ Instr.wellFormed (.call 8) = false ∧
    Instr.wellFormed (.jmp 128) = false ∧ Instr.wellFormed (.jeq 9) = false ∧ Instr.wellFormed (.jne 8) = false := by
  decide
theorem test_wf_refuses_two_registers : Instr.wellFormed (.add 9 0) = false ∧ Instr.wellFormed (.add 1 8) = false ∧
    Instr.wellFormed (.mul 8 0) = false ∧ Instr.wellFormed (.mul 0 8) = false ∧ Instr.wellFormed (.cmp 10 0) = false ∧
    Instr.wellFormed (.cmp 0 255) = false := by decide

/-! ### Decode: each row's bytes written out from 30_encoding.md R46, R50 -/

theorem test_decode_hlt : decodeTableWord 8 0b00000001 = some .hlt := by decide
theorem test_decode_ldi : decodeTableWord 24 0b00101010_00000001_10000010 = some (.ldi 1 0x2A) := by decide
theorem test_decode_prn : decodeTableWord 16 0b00000101_01000111 = some (.prn 5) := by decide
theorem test_decode_add : decodeTableWord 24 0b00000001_00000010_10100000 = some (.add 2 1) := by decide
theorem test_decode_mul : decodeTableWord 24 0b00000001_00000010_10100010 = some (.mul 2 1) := by decide
theorem test_decode_cmp : decodeTableWord 24 0b00000001_00000010_10100111 = some (.cmp 2 1) := by decide
theorem test_decode_push : decodeTableWord 16 0b00000110_01000101 = some (.push 6) := by decide
theorem test_decode_pop : decodeTableWord 16 0b00000010_01000110 = some (.pop 2) := by decide
theorem test_decode_call : decodeTableWord 16 0b00000001_01010000 = some (.call 1) := by decide
theorem test_decode_ret : decodeTableWord 8 0b00010001 = some .ret := by decide
theorem test_decode_jmp : decodeTableWord 16 0b00000010_01010100 = some (.jmp 2) := by decide
theorem test_decode_jeq : decodeTableWord 16 0b00000011_01010101 = some (.jeq 3) := by decide
theorem test_decode_jne : decodeTableWord 16 0b11111111_01010110 = some (.jne 255) := by decide
/-- 30_encoding.md R52: 0x00 and LS-8's SUB, AND, LD, INT are illegal. -/
theorem test_decode_illegal : [0x00, 0xA1, 0xA8, 0x83, 0x52].map (decodeTableWord 8) = [none, none, none, none, none] := by
  decide
theorem test_decode_truncated : decode OpcodeMap.default [0x82, 0x00] = .error .truncated := by decide
/-- 30_encoding.md R56: `LDI R0,8` and `MUL R0,R1`; R55: the source's program text. -/
theorem test_assemble : assemble OpcodeMap.default [.ldi 0 8, .mul 0 1] = [0x82, 0x00, 0x08, 0xA2, 0x00, 0x01] := by decide
theorem test_asm_text : asmLine .decimal [.ldi 0 8, .mul 0 1, .hlt] = "LDI R0,8; MUL R0,R1; HLT".toList := by decide
theorem test_asm_bases : asmText .hex (.ldi 7 0xF4) = "LDI R7,0xF4".toList ∧
    asmText .binary (.ldi 7 5) = "LDI R7,0b00000101".toList ∧ asmText .decimal (.ldi 1 200) = "LDI R1,200".toList := by
  decide

/-! ### One step of each instruction -/

/-- V-SY1. -/
theorem test_hlt : (after (atPc 0x0B [0x01] State.reset)).map (fun t => (t.pc, t.status)) = some (0x0C, .halted) := by decide
/-- V-SY2 and V-SY3. -/
theorem test_hlt_at_top : (after (atPc 0xFF [0x01] State.reset)).map State.pc = some 0 ∧
    (after (atPc 0xFF [0x01] (underFault State.reset))).map (fun t => (t.pc, t.status)) = some (256, .halted) := by decide
/-- V-SY9: LDI across the top. -/
theorem test_ldi_across_top : (after (atPc 0xFE [0x82, 0x01, 0x2A] State.reset)).map (fun t => (t.reg 1, t.pc)) =
    some (0x2A, 1) := by decide
/-- V-SY6. -/
theorem test_ldi_sp : (after (atPc 0 [0x82, 0x07, 0x10] State.reset)).map State.sp = some 0x10 := by decide
/-- V-SY11. -/
theorem test_prn : (after (atPc 9 [0x47, 0x00] (withR01 72 0))).map (fun t => (t.out, t.pc)) = some ([72], 11) := by decide
/-- V-SY12, V-SY13: the text is "255" and "0", each with LF. -/
theorem test_prn_text : (after (atPc 0 [0x47, 0x01] (withR01 0 255))).map State.hostText = some [0x32, 0x35, 0x35, 0x0A] ∧
    (after (atPc 0 [0x47, 0x01] (withR01 1 0))).map State.hostText = some [0x30, 0x0A] := by decide
/-- V-AL1. -/
theorem test_add_wraps : (after (atPc 0 [0xA0, 0x00, 0x01] (withR01 200 100))).map (fun t => (t.reg 0, t.reg 1, t.pc)) =
    some (44, 100, 3) := by decide
/-- V-AL8, V-AL5. -/
theorem test_add_same_and_sp : (after (atPc 0 [0xA0, 0x07, 0x01] (withR01 0 0x0C))).map State.sp = some 0 ∧
    (after (atPc 0 [0xA0, 0x00, 0x00] (withR01 128 0))).map (fun t => t.reg 0) = some 0 := by decide
/-- V-AL13, V-AL14. -/
theorem test_mul : (after (atPc 0 [0xA2, 0x00, 0x01] (withR01 255 255))).map (fun t => t.reg 0) = some 1 ∧
    (after (atPc 0 [0xA2, 0x00, 0x01] (withR01 15 17))).map (fun t => (t.reg 0, t.reg 1)) = some (255, 17) := by decide
/-- V-AL21, V-AL22. -/
theorem test_cmp_unsigned : (after (atPc 0 [0xA7, 0x00, 0x01] (withR01 0 255))).map State.fl = some .less ∧
    (after (atPc 0 [0xA7, 0x00, 0x01] (withR01 255 0))).map (fun t => (t.fl, t.reg 0, t.pc)) = some (.greater, 255, 3) := by
  decide
/-- V-AL23. -/
theorem test_cmp_same : (after (atPc 0 [0xA7, 0x03, 0x03] (State.reset.setFl .less))).map State.fl = some .equal := by decide
/-- V-ST2: SP wraps. -/
theorem test_push_wraps : (after (atPc 0x20 [0x45, 0x00] ((withR01 7 0).setSp 0))).map
    (fun t => (t.sp, t.memRead 0xFF, t.pc)) = some (0xFF, 7, 0x22) := by decide
/-- V-ST3: PUSH R7. -/
theorem test_push_sp : (after (atPc 0 [0x45, 0x07] State.reset)).map (fun t => (t.sp, t.memRead 0xF3)) =
    some (0xF3, 0xF3) := by decide
/-- V-ST4. -/
theorem test_pop : (after (atPc 0 [0x46, 0x02] ((State.reset.setSp 0xF3).memWrite 0xF3 44))).map
    (fun t => (t.reg 2, t.sp, t.memRead 0xF3)) = some (44, 0xF4, 44) := by decide
/-- V-ST6: POP R7. -/
theorem test_pop_sp : (after (atPc 0 [0x46, 0x07] ((State.reset.setSp 0xF3).memWrite 0xF3 0x10))).map State.sp =
    some 0x11 := by decide
/-- V-CF2: CALL R7. -/
theorem test_call_sp : (after (atPc 0x20 [0x50, 0x07] (State.reset.setSp 0x80))).map
    (fun t => (t.pc, t.memRead 0x7F, t.sp)) = some (0x80, 0x22, 0x7F) := by decide
/-- V-CF3: CALL across the top; under `fault` the byte pushed is the same, `trunc8(0x100)` (44_control_flow.md R90). -/
theorem test_call_across_top : (after (atPc 0xFE [0x50, 0x01] ((withR01 0 0x40).memWrite 0xF3 9))).map
      (fun t => (t.memRead 0xF3, t.sp, t.pc)) = some (0, 0xF3, 0x40) ∧
    (after (atPc 0xFE [0x50, 0x01] (underFault ((withR01 0 0x40).memWrite 0xF3 9)))).map
      (fun t => (t.memRead 0xF3, t.sp, t.pc)) = some (0, 0xF3, 0x40) := by decide
/-- V-CF7. -/
theorem test_ret : (after (atPc 0 [0x11] ((State.reset.setSp 0xFF).memWrite 0xFF 0x30))).map (fun t => (t.pc, t.sp)) =
    some (0x30, 0) := by decide
/-- V-CF8. -/
theorem test_jmp : (after (atPc 0 [0x54, 0x01] (withR01 0 0x13))).map State.pc = some 0x13 := by decide
/-- V-CF10, V-CF11. -/
theorem test_jeq : (after (atPc 0x19 [0x55, 0x01] (withR01 0 0x1C))).map State.pc = some 0x1C ∧
    (after (atPc 0x19 [0x55, 0x01] ((withR01 0 0x1C).setFl .less))).map State.pc = some 0x1B := by decide
/-- V-CF18. -/
theorem test_jeq_across_top : (after (atPc 0xFE [0x55, 0x00] (State.reset.setFl .less))).map State.pc = some 0 := by decide
/-- V-CF15, V-CF16. -/
theorem test_jne : (after (atPc 0x14 [0x56, 0x01] ((withR01 0 0x0C).setFl .greater))).map State.pc = some 0x0C ∧
    (after (atPc 0x14 [0x56, 0x01] (withR01 0 0x0C))).map State.pc = some 0x16 := by decide

/-! ### Errors -/

/-- V-CU1 and V-CU3: the whole state but the status is kept. -/
theorem test_unsupported_opcode : after (atPc 5 [0xFF, 9, 12] State.reset) =
    some ((atPc 5 [0xFF, 9, 12] State.reset).raise (.unsupportedOpcode 0xFF 5)) := by decide
/-- V-AL9, V-AL10: op1 is checked first. -/
theorem test_register_errors : (after (atPc 0 [0xA0, 9, 12] State.reset)).map State.status =
      some (.faulted (.boundsError .register 9 0)) ∧
    (after (atPc 0 [0xA0, 1, 8] State.reset)).map State.status = some (.faulted (.boundsError .register 8 0)) := by decide
/-- V-CF17: a branch not taken is checked too; V-ST9: nothing is pushed. -/
theorem test_register_error_before_effect : (after (atPc 0 [0x55, 9] (State.reset.setFl .less))).map State.status =
      some (.faulted (.boundsError .register 9 0)) ∧
    (after (atPc 0 [0x45, 8] State.reset)).map (fun t => (t.sp, t.mem)) =
      some (0xF4, (atPc 0 [0x45, 8] State.reset).mem) := by decide
/-- V-CU4, V-CU5: an operand past 255, before the register check. -/
theorem test_fetch_past_top : (after (atPc 0xFF [0xA0] (underFault State.reset))).map State.status =
      some (.faulted (.boundsError .memory 256 0xFF)) ∧
    (after (atPc 0xFE [0xA0, 9] (underFault State.reset))).map State.status =
      some (.faulted (.boundsError .memory 256 0xFE)) := by decide
/-- V-CU6. -/
theorem test_fetch_at_256 : (after (underFault { State.reset with pc := 256 })).map State.status =
    some (.faulted (.boundsError .memory 256 256)) := by decide
/-- V-SY4, V-CU7: no step from a terminal state. -/
theorem test_no_step_after_halt : after State.reset.halt = none ∧ after (State.reset.raise (.unsupportedOpcode 0 5)) = none := by
  decide

/-! ### Reset, memory, the host's word -/

/-- 10_state.md R27. -/
theorem test_reset : (List.finRange 8).map State.reset.reg = [0, 0, 0, 0, 0, 0, 0, 0xF4] ∧ State.reset.fl = .equal ∧
    State.reset.pc = 0 ∧ State.reset.memRead 0xF4 = 0 := by decide
/-- Writing 0 removes the entry, so equal memories are equal data (log 17). -/
theorem test_memory_canonical : Memory.write (Memory.write [] 3 7) 3 0 = [] ∧
    Memory.write (Memory.write [] 9 1) 3 7 = Memory.write (Memory.write [] 3 7) 9 1 := by decide
theorem test_fetch_word_runs : (after (State.reset.withFetchWord 24 0x080082)).map (fun t => (t.reg 0, t.pc)) =
    some (8, 3) := by decide
/-- 10_state.md R20: the bit view. -/
theorem test_flag_bits : [Flag.less, .greater, .equal].map Flag.bits = [4, 2, 1] := by decide
/-- 60_exceptions.md R96: the cause codes. -/
theorem test_cause_codes : [Fault.halted, .unsupportedOpcode 0 0, .boundsError .memory 256 255].map causeCode = [0, 1, 2] := by
  decide

/-! ### Witnesses: the hypotheses of the statements can be met -/

/-- An operand byte that names a register, at both ends of 0..7: PrnAppendsTheByte, PushStoresBelowTheTop,
PopLoadsTheTop, CallPushesTheReturnAddress, ConditionalJumpsFollowFl, and the first clauses of
LdiStoresTheImmediateAsItStands and JmpGoesToTheRegister. The hypotheses put no condition on the state. -/
theorem witness_operand_names_register : (0 : Byte).toNat = (0 : Reg).val ∧ (7 : Byte).toNat = spIndex.val := by decide
/-- Two operands: AddIsModulo256, MulIsModulo256, CmpIsTheUnsignedOrder. -/
theorem witness_two_operands : (7 : Byte).toNat = (7 : Reg).val ∧ (1 : Byte).toNat = (1 : Reg).val := by decide
/-- An operand byte that names no register, at its boundary: the last clauses of LdiStoresTheImmediateAsItStands and
JmpGoesToTheRegister; and one that does, for PushThenPopRestores. -/
theorem witness_operand_bounds : 8 ≤ (8 : Byte).toNat ∧ 8 ≤ (255 : Byte).toNat ∧ (7 : Byte).toNat < 8 := by decide
theorem witness_ResetMeetsInvariant : Params.default.wellFormed = true := by decide
theorem witness_LaunchLoadsTheWholeImage : (List.replicate 256 (1 : Byte)).length ≤ 256 ∧
    256 < (List.replicate 257 (1 : Byte)).length :=
  ⟨Nat.le_of_eq List.length_replicate, Nat.lt_of_lt_of_eq (by decide) List.length_replicate.symm⟩
theorem witness_DecodeOfEncodeIsTheInstruction : OpcodeMap.default.distinct = true := by decide
theorem witness_DecodedBytesAreTheEncoding : decode OpcodeMap.default [0x47, 0xFF, 0x01] = .ok (.prn 0xFF, [0x01]) := by
  decide
theorem witness_StepRunsTheDecodedInstruction :
    ∃ s : State, s.status = .running ∧ s.params.pcOverflow = .fault ∧
      decode s.params.opcodeMap (instrBytes s 3) = .ok (.prn 1, [0]) ∧ s.fits (Instr.prn 1).width :=
  ⟨atPc 0xFE [0x47, 1] (underFault State.reset), by decide, by decide, by decide, by
    show (_ : Nat) ≤ 256; decide⟩
theorem witness_StepRunsTheEncodedInstruction :
    ∃ s : State, s.status = .running ∧ s.params.wellFormed = true ∧
      instrBytes s (Instr.add 1 2).width = encode s.params.opcodeMap (.add 1 2) ∧ s.fits (Instr.add 1 2).width :=
  ⟨atPc 0 [0xA0, 1, 2] State.reset, by decide, by decide, by decide, trivial⟩
theorem witness_PlacedInstructionRuns : (underFault { State.reset with pc := 253 }).params.wellFormed = true ∧
    (underFault { State.reset with pc := 253 }).fits (Instr.add 1 2).width :=
  ⟨by decide, by show (_ : Nat) ≤ 256; decide⟩
/-- A step that halts, and one that faults on a register operand: StatusMachine, ErrorWritesOnlyTheStatus. -/
theorem witness_StatusMachine :
    (∃ t, step (atPc 0 [0x01] State.reset) = .next t ∧ t.status = .halted) ∧
    (∃ t, step (atPc 0 [0x47, 8] State.reset) = .next t ∧ t.status = .faulted (.boundsError .register 8 0)) ∧
    (∃ t, step State.reset = .next t ∧ t.status = .faulted (.unsupportedOpcode 0 0)) :=
  ⟨⟨_, rfl, by decide⟩, ⟨_, rfl, by decide⟩, ⟨_, rfl, by decide⟩⟩
theorem witness_TerminalStateAnswersItsReason : State.reset.halt.status = .halted ∧
    (State.reset.raise (.unsupportedOpcode 0 5)).status = .faulted (.unsupportedOpcode 0 5) ∧
    (State.reset.raise (.boundsError .register 8 0)).status = .faulted (.boundsError .register 8 0) := by decide
/-- Under both settings, at the last address. -/
theorem witness_UnsupportedOpcodeEndsTheRun : ∀ s ∈ [State.reset, underFault { State.reset with pc := 255 }],
    s.status = .running ∧ (s.params.pcOverflow = .fault → s.pcFetchable) ∧
    ∀ mn : Mnemonic, s.params.opcodeMap.byte mn ≠ s.memRead (s.pc.setWidth 8) := by
  intro s hs
  rcases List.mem_cons.1 hs with rfl | hs
  · exact ⟨rfl, fun h => absurd h (by decide), by intro mn; cases mn <;> decide⟩
  · rcases List.mem_singleton.1 hs with rfl
    exact ⟨rfl, fun _ => (by decide : (255 : Nat) ≤ 255), by intro mn; cases mn <;> decide⟩
theorem witness_IllegalRegisterOperandFaults :
    (Instr.add 9 12).registerOperands.find? (fun r => decide (8 ≤ r.toNat)) = some 9 ∧
    (Instr.add 1 8).registerOperands.find? (fun r => decide (8 ≤ r.toNat)) = some 8 := by decide
/-- The first clause at 256; the second at width 2 from 255 and width 3 from 254. -/
theorem witness_FetchPastTheTopFaults :
    (∃ s : State, s.status = .running ∧ s.params.pcOverflow = .fault ∧ s.pc.toNat = 256) ∧
    (∃ s : State, s.status = .running ∧ s.params.pcOverflow = .fault ∧ s.pc.toNat = 255 ∧
      s.params.opcodeMap.lookup (s.memRead (s.pc.setWidth 8)) = some .prn ∧ 256 < s.pc.toNat + Mnemonic.prn.width) ∧
    (∃ s : State, s.status = .running ∧ s.params.pcOverflow = .fault ∧ s.pc.toNat = 254 ∧
      s.params.opcodeMap.lookup (s.memRead (s.pc.setWidth 8)) = some .add ∧ 256 < s.pc.toNat + Mnemonic.add.width) :=
  ⟨⟨underFault { State.reset with pc := 256 }, by decide⟩, ⟨atPc 255 [0x47] (underFault State.reset), by decide⟩,
    ⟨atPc 254 [0xA0, 9] (underFault State.reset), by decide⟩⟩
/-- A step under `wrap`: NoMemoryErrorUnderWrap, ParametersNeverChange. -/
theorem witness_NoMemoryErrorUnderWrap : (atPc 0xFE [0x82, 1, 2] State.reset).params.pcOverflow = .wrap ∧
    ∃ t, step (atPc 0xFE [0x82, 1, 2] State.reset) = .next t := ⟨by decide, _, rfl⟩
theorem witness_RetResumesAfterCall : ∃ t, (1 : Byte).toNat < 8 ∧ exec (.call 1) State.reset = .next t ∧ t.sp = t.sp ∧
    t.memRead t.sp = t.memRead t.sp ∧ t.memRead t.sp = 2 ∧ State.reset.params.pcOverflow = .wrap :=
  ⟨_, by decide, rfl, rfl, rfl, by decide, rfl⟩
theorem witness_AddressAdditionPerSetting : (256 : CodeAddr).toNat + 3 < 512 := by decide
theorem witness_StoreChangesOneCell : (0xFF : Byte) ≠ 0 := by decide
theorem witness_CanonicalMemoriesAreEqual : Memory.wf [(0, 1), (255, 2)] = true ∧
    Memory.wf (Memory.write (Memory.write [] 255 2) 0 1) = true ∧
    (∀ a : Nat, a < 256 → Memory.read [(0, 1), (255, 2)] a = Memory.read (Memory.write (Memory.write [] 255 2) 0 1) a) :=
  ⟨by decide, by decide, fun _ _ => rfl⟩
/-- The first clause: a PUSH changes the cell below SP. The second: a RET, and a cell that is neither its own byte nor
the cell at SP. -/
theorem witness_OnlyFetchAndStackReachMemory :
    (∃ t, step (atPc 0 [0x45, 0] (withR01 9 0)) = .next t ∧
      t.memRead 0xF3 ≠ (atPc 0 [0x45, 0] (withR01 9 0)).memRead 0xF3) ∧
    (∃ t, step (atPc 0 [0x11] State.reset) = .next t) ∧ fetch (atPc 0 [0x11] State.reset) = .ok .ret ∧
    (∀ j : Nat, j < Instr.ret.width → ((atPc 0 [0x11] State.reset).pcPlus j).setWidth 8 ≠ (1 : Byte)) ∧
    (readsStack .ret = true → (atPc 0 [0x11] State.reset).sp ≠ 1) := by
  refine ⟨⟨_, rfl, by decide⟩, ⟨_, rfl⟩, rfl, ?_, fun _ => by decide⟩
  intro j hj
  have : j = 0 := by
    have : Instr.ret.width = 1 := rfl
    omega
  subst this
  decide
/-- V-ST10's place: a PUSH at 6 with SP = 9. -/
theorem witness_StoreIsSeenByTheNextFetch : ((atPc 6 [0x45, 0] ((withR01 1 0).setSp 9)).pcPlus 2).toNat =
    (atPc 6 [0x45, 0] ((withR01 1 0).setSp 9)).decSp.sp.toNat ∧ (0 : Byte).toNat = (0 : Reg).val := by decide
theorem witness_RegistersWrittenAreTheTables : ∃ t, exec (.pop 2) (State.reset.memWrite 0xF4 5) = .next t ∧
    t.reg 2 ≠ (State.reset.memWrite 0xF4 5).reg 2 ∧ t.reg 7 ≠ (State.reset.memWrite 0xF4 5).reg 7 :=
  ⟨_, rfl, by decide, by decide⟩
/-- A branch not taken reads no register; LDI reads not even the register it writes. -/
theorem witness_RegistersReadAreTheTables :
    (Instr.wellFormed (.jne 3) = true ∧ (∃ t, exec (.jne 3) State.reset = .next t) ∧
      (3 : Reg).val ∉ readRegs State.reset.fl (.jne 3)) ∧
    (Instr.wellFormed (.ldi 3 1) = true ∧ (∃ t, exec (.ldi 3 1) State.reset = .next t) ∧
      (3 : Reg).val ∉ readRegs State.reset.fl (.ldi 3 1)) :=
  ⟨⟨by decide, ⟨_, rfl⟩, by decide⟩, ⟨by decide, ⟨_, rfl⟩, by decide⟩⟩
/-- A CMP that changes FL; an instruction that reads no flag; FL = E. -/
theorem witness_FlWrittenByCmpReadByJumps :
    (∃ t, step (atPc 0 [0xA7, 0, 1] (withR01 1 2)) = .next t ∧ t.fl ≠ (atPc 0 [0xA7, 0, 1] (withR01 1 2)).fl) ∧
    (readsFlag (.cmp 0 1) = false ∧ ∃ t, exec (.cmp 0 1) State.reset = .next t) ∧
    ((7 : Byte).toNat = spIndex.val ∧ State.reset.fl = .equal) :=
  ⟨⟨_, rfl, by decide⟩, ⟨by decide, _, rfl⟩, by decide, rfl⟩
theorem witness_OutputOnlyByPrnAndReadByNothing :
    ∃ t, step (atPc 0 [0x47, 0] State.reset) = .next t ∧ t.out ≠ (atPc 0 [0x47, 0] State.reset).out :=
  ⟨_, rfl, by decide⟩
theorem witness_StepKeepsTheInvariant :
    ∃ t, (atPc 0 [0x45, 7] State.reset).Inv ∧ step (atPc 0 [0x45, 7] State.reset) = .next t :=
  ⟨_, ⟨by decide, by decide, by show (_ : Nat) ≤ 255; decide, trivial⟩, rfl⟩
theorem witness_RunStopsOnlyAtTermination : (∃ t, run 1 State.reset = .terminated (.unsupportedOpcode 0 0) t) ∧
    (∃ t, run 0 State.reset = .outOfFuel t) := ⟨⟨_, rfl⟩, ⟨_, rfl⟩⟩
theorem witness_LaunchedRunEndsInTheInvariant : ∃ s t, Params.default.wellFormed = true ∧
    launch Params.default [0x01] = .ok s ∧ run 1 s = .terminated .halted t := ⟨_, _, by decide, rfl, rfl⟩

end Sys2Proof.Tests.Slice0
end

section
/-! The status and the condition code: what a step can do, in the form the proofs about state use, and StatusMachine and
FlWrittenByCmpReadByJumps. -/

namespace Sys2Proof.Machine

/-! ### The operand that faults -/

/-- The first register operand that names no register, which is the one the operand check faults on (40_control_unit.md
R65). -/
def firstIllegalOperand (i : Instr) : Option Byte :=
  i.registerOperands.find? (fun r => decide (8 ≤ r.toNat))

theorem firstIllegalOperand_eq_none {i : Instr} : firstIllegalOperand i = none ↔ i.wellFormed = true := by
  simp [firstIllegalOperand, Instr.wellFormed]

theorem mem_and_le_of_firstIllegalOperand {i : Instr} {v : Byte} (h : firstIllegalOperand i = some v) :
    v ∈ i.registerOperands ∧ 8 ≤ v.toNat :=
  ⟨List.mem_of_find?_eq_some h, by simpa using List.find?_some h⟩

/-! ### What `exec` and `step` answer -/

/-- An instruction whose operands do not all name registers raises BoundsError on the first that does not. -/
theorem exec_of_illegal {i : Instr} {v : Byte} (h : firstIllegalOperand i = some v) (s : State) :
    exec i s = .next (s.raise (.boundsError .register v.toNat s.pc)) := by
  rcases exec_cases i s with ⟨hnone, _⟩ | ⟨w, hw, he⟩
  · cases hnone.symm.trans h
  · cases hw.symm.trans h
    exact he

theorem exec_exists_next (i : Instr) (s : State) : ∃ t, exec i s = .next t := by
  rcases exec_cases i s with ⟨-, t, -, he⟩ | ⟨v, -, he⟩
  · exact ⟨t, he⟩
  · exact ⟨_, he⟩

/-- The inversion of `exec`: the next state is the effect of a well-formed instruction, or the error of an operand. -/
theorem exec_next_cases {i : Instr} {s t : State} (h : exec i s = .next t) :
    (i.wellFormed = true ∧ Effect s i t) ∨
    ∃ v, firstIllegalOperand i = some v ∧ t = s.raise (.boundsError .register v.toNat s.pc) := by
  rcases exec_cases i s with ⟨hnone, u, hu, he⟩ | ⟨v, hv, he⟩
  · cases he.symm.trans h
    exact .inl ⟨firstIllegalOperand_eq_none.1 hnone, hu⟩
  · cases he.symm.trans h
    exact .inr ⟨v, hv, rfl⟩

/-- The inversion of `step`: it ran from Running, and raised a fetch error, ran the effect of the fetched instruction,
or raised the error of one of its operands. -/
theorem step_next_cases {s t : State} (h : step s = .next t) :
    s.status = .running ∧
      ((∃ e, fetch s = .error e ∧ t = s.raise e) ∨
       (∃ i, fetch s = .ok i ∧ i.wellFormed = true ∧ Effect s i t) ∨
       ∃ i v, fetch s = .ok i ∧ firstIllegalOperand i = some v ∧
         t = s.raise (.boundsError .register v.toNat s.pc)) := by
  obtain ⟨hrun, ⟨e, hf, ht⟩ | ⟨i, hf, he⟩⟩ := step_cases h
  · exact ⟨hrun, .inl ⟨e, hf, ht⟩⟩
  · rcases exec_next_cases he with ⟨hwf, heff⟩ | ⟨v, hv, ht⟩
    · exact ⟨hrun, .inr (.inl ⟨i, hf, hwf, heff⟩)⟩
    · exact ⟨hrun, .inr (.inr ⟨i, v, hf, hv, ht⟩)⟩

/-- A step exists exactly from Running (10_state.md R22). -/
theorem running_iff_exists_step (s : State) : s.status = .running ↔ ∃ t, step s = .next t := by
  constructor
  · intro hrun
    cases hf : fetch s with
    | error e => exact ⟨_, step_of_fetch_error hrun hf⟩
    | ok i =>
      rw [step_of_fetch_ok hrun hf]
      exact exec_exists_next i s
  · rintro ⟨t, h⟩
    exact (step_cases h).1

/-! ### The status after an effect -/

theorem Effect.status_of_hlt {s t : State} (h : Effect s .hlt t) : t.status = .halted := by
  cases h
  rfl

theorem Effect.status_of_ne_hlt {s t : State} {i : Instr} (h : Effect s i t) (hi : i ≠ .hlt) :
    t.status = s.status := by
  cases h with
  | hlt => exact absurd rfl hi
  | jeq | jne => split <;> rfl
  | _ => rfl

/-- An instruction that faults on an operand has one, so it is not HLT. -/
theorem ne_hlt_of_firstIllegalOperand {i : Instr} {v : Byte} (h : firstIllegalOperand i = some v) : i ≠ .hlt := by
  rintro rfl
  cases h

theorem step_halts_iff_hlt {s t : State} (h : step s = .next t) : t.status = .halted ↔ fetch s = .ok .hlt := by
  obtain ⟨hrun, ⟨e, hf, rfl⟩ | ⟨i, hf, -, heff⟩ | ⟨i, v, hf, hv, rfl⟩⟩ := step_next_cases h
  · simp [hf]
  · by_cases hi : i = .hlt
    · subst hi
      simp [hf, heff.status_of_hlt]
    · simp [hf, hi, heff.status_of_ne_hlt hi, hrun]
  · simp [hf, ne_hlt_of_firstIllegalOperand hv]

/-- A step faults only from a fetch error or from a register operand past 7. -/
theorem step_faulted_cases {s t : State} {e : CoreError} (h : step s = .next t) (ht : t.status = .faulted e) :
    fetch s = .error e ∨
      ∃ i v, fetch s = .ok i ∧ firstIllegalOperand i = some v ∧ e = .boundsError .register v.toNat s.pc := by
  obtain ⟨hrun, ⟨e', hf, rfl⟩ | ⟨i, hf, -, heff⟩ | ⟨i, v, hf, hv, rfl⟩⟩ := step_next_cases h
  · cases ht
    exact .inl hf
  · by_cases hi : i = .hlt
    · subst hi
      cases heff.status_of_hlt.symm.trans ht
    · cases hrun.symm.trans ((heff.status_of_ne_hlt hi).symm.trans ht)
  · cases ht
    exact .inr ⟨i, v, hf, hv, rfl⟩

/-- Settles O12: every clause is read off the inversion of `step`. -/
theorem statusMachine : Obligations.StatusMachine := by
  refine ⟨rfl, running_iff_exists_step, fun _ _ => step_halts_iff_hlt, ?_, ?_⟩
  · intro s e hrun hf
    exact ⟨_, step_of_fetch_error hrun hf, rfl⟩
  · intro s t e h ht
    rcases step_faulted_cases h ht with hf | ⟨i, v, hf, hv, he⟩
    · exact .inl hf
    · obtain ⟨hmem, hle⟩ := mem_and_le_of_firstIllegalOperand hv
      exact .inr ⟨i, v, hf, hmem, hle, he⟩

/-! ### The condition code -/

/-- Among the effects, only CMP's writes FL (10_state.md R21). -/
theorem Effect.eq_cmp_of_fl_ne {s t : State} {i : Instr} (h : Effect s i t) (hfl : t.fl ≠ s.fl) :
    ∃ a b, i = .cmp a b := by
  cases h with
  | cmp => exact ⟨_, _, rfl⟩
  | jeq | jne =>
    refine absurd ?_ hfl
    split <;> rfl
  | _ => exact absurd rfl hfl

/-- An effect that reads no flag is the same from another FL, up to the FL it leaves. -/
theorem Effect.exists_setFl {s t : State} {i : Instr} (h : Effect s i t) (hi : readsFlag i = false) (f : Flag) :
    ∃ u, Effect (s.setFl f) i u ∧ u.setFl t.fl = t := by
  cases h with
  | hlt => exact ⟨_, .hlt, rfl⟩
  | ldi h => exact ⟨_, .ldi h, rfl⟩
  | prn h => exact ⟨_, .prn h, rfl⟩
  | add ha hb => exact ⟨_, .add ha hb, rfl⟩
  | mul ha hb => exact ⟨_, .mul ha hb, rfl⟩
  | cmp ha hb => exact ⟨_, .cmp ha hb, rfl⟩
  | push h => exact ⟨_, .push h, rfl⟩
  | pop h => exact ⟨_, .pop h, rfl⟩
  | call h => exact ⟨_, .call h, rfl⟩
  | ret => exact ⟨_, .ret, rfl⟩
  | jmp h => exact ⟨_, .jmp h, rfl⟩
  | jeq | jne => cases hi

/-- The same of `exec`, whose operand check does not read FL either. -/
theorem exec_exists_setFl {s t : State} {i : Instr} (h : exec i s = .next t) (hi : readsFlag i = false) (f : Flag) :
    ∃ u, exec i (s.setFl f) = .next u ∧ u.setFl t.fl = t := by
  rcases exec_next_cases h with ⟨-, heff⟩ | ⟨v, hv, rfl⟩
  · obtain ⟨u, hu, hut⟩ := heff.exists_setFl hi f
    exact ⟨u, exec_of_effect hu, hut⟩
  · exact ⟨_, exec_of_illegal hv _, rfl⟩

/-- A step that changes FL is the effect of a well-formed CMP: every error keeps FL. -/
theorem step_fl_ne_cases {s t : State} (h : step s = .next t) (hfl : t.fl ≠ s.fl) :
    ∃ a b, fetch s = .ok (.cmp a b) ∧ (Instr.cmp a b).wellFormed = true ∧ t.status = .running := by
  obtain ⟨hrun, ⟨e, -, rfl⟩ | ⟨i, hf, hwf, heff⟩ | ⟨i, v, -, -, rfl⟩⟩ := step_next_cases h
  · exact absurd rfl hfl
  · obtain ⟨a, b, rfl⟩ := heff.eq_cmp_of_fl_ne hfl
    exact ⟨a, b, hf, hwf, (heff.status_of_ne_hlt nofun).trans hrun⟩
  · exact absurd rfl hfl

theorem exec_jeq_of_equal {s : State} {a : Byte} {ra : Reg} (ha : a.toNat = ra.val) (hfl : s.fl = .equal) :
    exec (.jeq a) s = .next (s.jump (s.reg ra)) := by
  simpa [hfl] using exec_of_effect (.jeq (s := s) ha)

theorem exec_jne_of_equal {s : State} {a : Byte} {ra : Reg} (ha : a.toNat = ra.val) (hfl : s.fl = .equal) :
    exec (.jne a) s = .next (s.advance 2) := by
  simpa [hfl] using exec_of_effect (.jne (s := s) ha)

/-- Settles O41: the clauses about a step and about `exec` are read off their inversions, effect by effect. -/
theorem flWrittenByCmpReadByJumps : Obligations.FlWrittenByCmpReadByJumps := by
  refine ⟨rfl, fun _ _ => step_fl_ne_cases, ?_, ?_⟩
  · intro i s t f hi h
    exact exec_exists_setFl h hi f
  · intro s a ra ha hfl
    exact ⟨⟨_, exec_jeq_of_equal ha hfl, rfl⟩, ⟨_, exec_jne_of_equal ha hfl, rfl⟩⟩

end Sys2Proof.Machine
end

section
/-! Memory: what a store changes and what it leaves unchanged. -/

namespace Sys2Proof.Machine

/-- The frame of a store (20_memory.md R35): memory is the only field it writes. -/
theorem State.memWrite_restore_mem (s : State) (a v : Byte) : { s.memWrite a v with mem := s.mem } = s := rfl

/-- Settles O35: the two laws of a read after a store, and the store's frame. -/
theorem storeChangesOneCell : Obligations.StoreChangesOneCell := by
  intro s a v
  refine ⟨s.memRead_memWrite_same a v, ?_, s.memWrite_restore_mem a v⟩
  intro b hb
  exact s.memRead_memWrite_other v hb.symm

end Sys2Proof.Machine
end

section
/-! LDI: its effect on a legal register operand, and its error on any other. -/

namespace Sys2Proof.Machine

/-- LDI does not check its immediate: a register operand past 7 is its one error (30_encoding.md R48). -/
theorem exec_ldi_of_illegal {a : Byte} (ha : 8 ≤ a.toNat) (imm8 : Byte) (s : State) :
    exec (.ldi a imm8) s = .next (s.raise (.boundsError .register a.toNat s.pc)) :=
  exec_of_illegal (by simp [firstIllegalOperand, Instr.registerOperands, ha]) s

/-- Settles O20: a legal LDI is a register write and an advance, whose frames give the clauses about the other fields. -/
theorem ldiStoresTheImmediateAsItStands : Obligations.LdiStoresTheImmediateAsItStands := by
  constructor
  · intro s a imm8 ra ha
    have other : ∀ r : Reg, r ≠ ra → ((s.setReg ra imm8).advance 3).reg r = s.reg r :=
      fun r hr => s.setReg_reg_other imm8 hr.symm
    exact ⟨_, exec_of_effect (.ldi ha), s.setReg_reg_same ra imm8, rfl, other, fun _ => rfl, rfl, rfl, rfl, rfl⟩
  · intro s a imm8 ha
    exact ⟨_, exec_ldi_of_illegal ha imm8 s, rfl⟩

end Sys2Proof.Machine
end

section
/-! The end of a run: a terminal state answers its reason to the run loop, and an opcode byte outside the Instruction
Table ends a run. -/

namespace Sys2Proof.Machine

/-! ### The run loop, one step at a time -/

/-- In a terminal state there is no step (40_control_unit.md R60). -/
theorem step_of_terminationReason {s : State} {r : Fault} (h : terminationReason s.status = some r) :
    step s = .fault r := by
  simp [step, h]

/-- A terminal state ends the run loop at once, whatever the fuel (40_control_unit.md R70). -/
theorem run_of_terminationReason {s : State} {r : Fault} (h : terminationReason s.status = some r) (fuel : Nat) :
    run fuel s = .terminated r s := by
  cases fuel <;> simp [run, step_of_terminationReason h]

theorem run_succ_of_step_next {s t : State} (h : step s = .next t) (fuel : Nat) : run (fuel + 1) s = run fuel t := by
  simp [run, h]

/-! ### An opcode byte outside the table -/

/-- A fetch from 0..255 reads memory; outside that range only `wrap` does (20_memory.md R37). -/
theorem fetchByte_of_le {s : State} {a : CodeAddr} (h : s.params.pcOverflow = .fault → a.toNat ≤ 255) :
    fetchByte s a = .ok (s.memRead (a.setWidth 8)) := by
  cases hb : fetchByte s a with
  | ok v => rw [(fetchByte_ok hb).1]
  | error e =>
    obtain ⟨-, hfault, hlt⟩ := fetchByte_error hb
    exact absurd (h hfault) (by omega)

/-- The fetch stops at the opcode byte: no hypothesis speaks of the operand bytes (40_control_unit.md R63). -/
theorem fetch_of_lookup_eq_none {s : State} {opc : Byte} (hb : fetchByte s s.pc = .ok opc)
    (hl : s.params.opcodeMap.lookup opc = none) : fetch s = .error (.unsupportedOpcode opc s.pc) := by
  simp [fetch, hb, hl]

/-- Settles O14: the step raises the fetch's error, and the run loop meets the Faulted state next. -/
theorem unsupportedOpcodeEndsTheRun : Obligations.UnsupportedOpcodeEndsTheRun := by
  intro s hrun hpc hmap
  have hfetch := fetch_of_lookup_eq_none (fetchByte_of_le hpc) (lookup_eq_none.2 hmap)
  have hstep := step_of_fetch_error hrun hfetch
  refine ⟨_, hstep, rfl, fun fuel => ?_⟩
  rw [run_succ_of_step_next hstep]
  exact run_of_terminationReason rfl fuel

end Sys2Proof.Machine
end

section
/-! HLT: its encoding, its effect, and the pc it leaves, also from the last cell of memory. -/

namespace Sys2Proof.Machine

theorem encode_hlt (m : OpcodeMap) : encode m .hlt = [m.hlt] := rfl

/-- One past the last cell, address 255, in each setting of `PC_OVERFLOW` (20_memory.md R37). -/
theorem State.pcPlus_one_toNat_of_top {s : State} (h : s.pc.toNat = 255) :
    (s.pcPlus 1).toNat = if s.params.pcOverflow = .wrap then 0 else 256 := by
  unfold State.pcPlus
  cases s.params.pcOverflow with
  | wrap => simp [addrPlus_wrap_toNat, h]
  | fault => simp [addrPlus_fault_toNat, h]

/-- Settles O19: HLT's effect is an advance and a halt, whose frames give the clauses about the other fields, and a
Halted state answers its termination reason. -/
theorem hltHaltsPastItself : Obligations.HltHaltsPastItself := by
  refine ⟨encode_hlt, fun s => ?_⟩
  have no_step : step (s.advance 1).halt = .fault .halted := step_of_terminationReason rfl
  exact ⟨_, exec_of_effect .hlt, rfl, rfl, s.pcPlus_one_toNat_of_top, no_step,
    fun _ => rfl, fun _ => rfl, rfl, rfl, rfl⟩

end Sys2Proof.Machine
end

section
/-! The ALU: what each of its functions computes, and ADD, MUL and CMP on legal register operands. -/

namespace Sys2Proof.Machine

/-! ### The functions (42_alu.md R79 to R81) -/

@[simp] theorem trunc8_toNat (v : Nat) : (trunc8 v).toNat = v % 256 := BitVec.toNat_ofNat v 8

@[simp] theorem aluAdd_toNat (u v : Byte) : (aluAdd u v).toNat = (u.toNat + v.toNat) % 256 := trunc8_toNat _

@[simp] theorem aluMul_toNat (u v : Byte) : (aluMul u v).toNat = (u.toNat * v.toNat) % 256 := trunc8_toNat _

theorem aluMul_comm (u v : Byte) : aluMul u v = aluMul v u := by
  rw [aluMul, aluMul, Nat.mul_comm]

theorem aluMul_zero_right (u : Byte) : aluMul u 0 = 0 := rfl

theorem aluMul_zero_left (u : Byte) : aluMul 0 u = 0 := (aluMul_comm 0 u).trans (aluMul_zero_right u)

/-- The three outcomes of a compare, each with the order it stands for. -/
theorem aluCmp_cases (u v : Byte) :
    (u.toNat < v.toNat ∧ aluCmp u v = .less) ∨ (v.toNat < u.toNat ∧ aluCmp u v = .greater) ∨
    (u = v ∧ aluCmp u v = .equal) := by
  unfold aluCmp
  by_cases hlt : u.toNat < v.toNat
  · exact .inl ⟨hlt, if_pos hlt⟩
  · by_cases hgt : v.toNat < u.toNat
    · exact .inr (.inl ⟨hgt, by rw [if_neg hlt, if_pos hgt]⟩)
    · have heq : u = v := BitVec.eq_of_toNat_eq (by omega)
      exact .inr (.inr ⟨heq, by rw [if_neg hlt, if_neg hgt]⟩)

/-- The flag decides the order: the three outcomes exclude each other, and so do the three orders. -/
theorem aluCmp_iff (u v : Byte) :
    (aluCmp u v = .less ↔ u.toNat < v.toNat) ∧ (aluCmp u v = .greater ↔ v.toNat < u.toNat) ∧
    (aluCmp u v = .equal ↔ u = v) := by
  obtain ⟨h, hc⟩ | ⟨h, hc⟩ | ⟨rfl, hc⟩ := aluCmp_cases u v
  · have hne : u ≠ v := fun huv => absurd (congrArg BitVec.toNat huv) h.ne
    simp [hc, h, h.le, hne]
  · have hne : u ≠ v := fun huv => absurd (congrArg BitVec.toNat huv) h.ne'
    simp [hc, h, h.le, hne]
  · simp [hc]

/-! ### The instructions (42_alu.md R82 to R84) -/

/-- The frame of an instruction that writes one register and advances. -/
theorem State.setReg_advance_reg_other (s : State) {ra r : Reg} (v : Byte) (w : Nat) (h : r ≠ ra) :
    ((s.setReg ra v).advance w).reg r = s.reg r :=
  s.setReg_reg_other v h.symm

/-- Settles O23: a legal ADD writes `aluAdd` of the two registers as they were and advances. -/
theorem addIsModulo256 : Obligations.AddIsModulo256 := by
  refine ⟨aluAdd_toNat, fun s a b ra rb ha hb => ?_⟩
  refine ⟨_, exec_of_effect (.add ha hb), ?sum, rfl, fun r => s.setReg_advance_reg_other _ 3, fun _ => rfl,
    rfl, rfl, rfl, rfl⟩
  case sum => rw [State.advance_reg, State.setReg_reg_same, aluAdd_toNat]

/-- Settles O24: a legal MUL writes `aluMul` of the two registers as they were and advances. -/
theorem mulIsModulo256 : Obligations.MulIsModulo256 := by
  refine ⟨aluMul_toNat, fun u => ⟨aluMul_zero_right u, aluMul_zero_left u⟩, fun s a b ra rb ha hb => ?_⟩
  refine ⟨_, exec_of_effect (.mul ha hb), ?product, rfl, fun r => s.setReg_advance_reg_other _ 3, fun _ => rfl,
    rfl, rfl, rfl, rfl⟩
  case product => rw [State.advance_reg, State.setReg_reg_same, aluMul_toNat]

/-- Settles O25: a legal CMP leaves `aluCmp` of the two registers in FL, so the law of the function is that of FL. -/
theorem cmpIsTheUnsignedOrder : Obligations.CmpIsTheUnsignedOrder := by
  refine ⟨aluCmp_iff, fun s a b ra rb ha hb => ?_⟩
  obtain ⟨hless, hgreater, hequal⟩ := aluCmp_iff (s.reg ra) (s.reg rb)
  exact ⟨_, exec_of_effect (.cmp ha hb), hless, hgreater, hequal, rfl, fun _ => rfl, fun _ => rfl, rfl, rfl, rfl⟩

end Sys2Proof.Machine
end

section
/-! RET and JMP: their encodings, and the effect of each, which ends in a jump. -/

namespace Sys2Proof.Machine

/-! ### RET (44_control_flow.md R91) -/

theorem encode_ret (m : OpcodeMap) : encode m .ret = [m.ret] := rfl

theorem State.incSp_sp_toNat (s : State) : s.incSp.sp.toNat = (s.sp.toNat + 1) % 256 := by
  rw [State.incSp_sp, BitVec.toNat_add]
  rfl

/-- Settles O30: RET's effect is a jump from the state after the increment of SP, and a jump writes only pc. -/
theorem retPopsIntoPc : Obligations.RetPopsIntoPc := by
  refine ⟨encode_ret, fun s => ?_⟩
  have other : ∀ r : Reg, r ≠ spIndex → (s.incSp.jump (s.memRead s.sp)).reg r = s.reg r :=
    fun _ hr => s.incSp_reg_other hr
  exact ⟨_, exec_of_effect .ret, rfl, s.incSp_sp_toNat, other, fun _ => rfl, rfl, rfl, rfl, rfl⟩

/-! ### JMP (44_control_flow.md R92) -/

theorem encode_jmp (m : OpcodeMap) (a : Byte) : encode m (.jmp a) = [m.jmp, a] := rfl

theorem exec_jmp_of_illegal {a : Byte} (ha : 8 ≤ a.toNat) (s : State) :
    exec (.jmp a) s = .next (s.raise (.boundsError .register a.toNat s.pc)) :=
  exec_of_illegal (by simp [firstIllegalOperand, Instr.registerOperands, ha]) s

/-- Settles O32: a legal JMP is a jump, which writes only pc, and an operand past 7 is its one error. -/
theorem jmpGoesToTheRegister : Obligations.JmpGoesToTheRegister := by
  refine ⟨encode_jmp, ?legal, ?illegal⟩
  case legal =>
    intro s a ra ha
    exact ⟨_, exec_of_effect (.jmp ha), rfl, fun _ => rfl, fun _ => rfl, rfl, rfl, rfl, rfl⟩
  case illegal =>
    intro s a ha
    exact ⟨_, exec_jmp_of_illegal ha s, rfl⟩

end Sys2Proof.Machine
end

section
/-! The codec: the Instruction Table's lookup, and decoding and encoding as inverses of each other. -/

namespace Sys2Proof.Machine

/-! ### The lookup -/

theorem OpcodeMap.byte_injective {m : OpcodeMap} (h : m.distinct = true) : Function.Injective m.byte := by
  intro mn mn' heq
  have hnodup : (Mnemonic.all.map m.byte).Nodup := by simpa [OpcodeMap.distinct] using h
  exact List.inj_on_of_nodup_map hnodup (Mnemonic.mem_all mn) (Mnemonic.mem_all mn') heq

/-- Under a map of distinct bytes the lookup finds the entry of each opcode byte. -/
theorem lookup_byte {m : OpcodeMap} (h : m.distinct = true) (mn : Mnemonic) : m.lookup (m.byte mn) = some mn := by
  cases hl : m.lookup (m.byte mn) with
  | none => exact absurd rfl (lookup_eq_none.1 hl mn)
  | some mn' => rw [OpcodeMap.byte_injective h (lookup_eq_some_byte hl)]

/-! ### Operand bytes -/

/-- An entry uses only the operand bytes it has (00_scope.md R11). -/
theorem Mnemonic.operands_build (op1 op2 : Byte) (mn : Mnemonic) :
    (mn.build op1 op2).operands = [op1, op2].take (mn.width - 1) := by
  cases mn <;> rfl

/-- Operand bytes past an entry's width do not change its instruction (00_scope.md R11). -/
theorem Mnemonic.build_congr {mn : Mnemonic} {op1 op2 op1' op2' : Byte} (h1 : 1 < mn.width → op1 = op1')
    (h2 : 2 < mn.width → op2 = op2') : mn.build op1 op2 = mn.build op1' op2' := by
  cases mn <;> simp_all [Mnemonic.build, Mnemonic.width, Mnemonic.format, InstrFormat.width]

/-- An instruction is its entry with the bytes that its operand bytes start. -/
theorem Instr.eq_build_of_operands {i : Instr} {op1 op2 : Byte} {rest : List Byte}
    (h : [op1, op2] = i.operands ++ rest) : i = i.mnemonic.build op1 op2 := by
  cases i <;> simp_all [Instr.operands, Instr.mnemonic, Mnemonic.build]

/-- The encoding has the table's width: the family of Laws/PerInstr, for every instruction. -/
theorem length_encode (m : OpcodeMap) (i : Instr) : (encode m i).length = i.width := by
  cases i <;> rfl

/-! ### The decoder -/

theorem decode_of_lookup_none {m : OpcodeMap} {opc : Byte} (h : m.lookup opc = none) (bytes : List Byte) :
    decode m (opc :: bytes) = .error (.unsupportedOpcode opc) := by
  simp [decode, h]

/-- Decoding what starts with a byte of the table: the instruction of the entry whose operand bytes follow. -/
theorem decode_cons_eq_ok_iff {m : OpcodeMap} {opc : Byte} {mn : Mnemonic} (h : m.lookup opc = some mn)
    {bytes rest : List Byte} {i : Instr} :
    decode m (opc :: bytes) = .ok (i, rest) ↔ i.mnemonic = mn ∧ bytes = i.operands ++ rest := by
  constructor
  · intro hd
    simp only [decode, h] at hd
    split at hd
    case h_5 => cases hd
    all_goals
      rename_i hformat
      cases hd
      simp [Mnemonic.operands_build, Mnemonic.width, InstrFormat.width, hformat]
  · rintro ⟨rfl, rfl⟩
    cases i <;> simp [decode, h, Instr.mnemonic, Instr.operands, Mnemonic.format, Mnemonic.build]

/-- What decodes is an opcode byte of the table, then the operand bytes of its instruction, then the rest. -/
theorem decode_eq_ok_iff {m : OpcodeMap} {bytes rest : List Byte} {i : Instr} :
    decode m bytes = .ok (i, rest) ↔
      ∃ opc, m.lookup opc = some i.mnemonic ∧ bytes = opc :: (i.operands ++ rest) := by
  constructor
  · intro hd
    cases bytes with
    | nil => cases hd
    | cons opc bytes =>
      cases hl : m.lookup opc with
      | none => cases (decode_of_lookup_none hl bytes).symm.trans hd
      | some mn =>
        obtain ⟨rfl, rfl⟩ := (decode_cons_eq_ok_iff hl).1 hd
        exact ⟨opc, hl, rfl⟩
  · rintro ⟨opc, hl, rfl⟩
    exact (decode_cons_eq_ok_iff hl).2 ⟨rfl, rfl⟩

theorem decode_encode {m : OpcodeMap} (h : m.distinct = true) (i : Instr) (rest : List Byte) :
    decode m (encode m i ++ rest) = .ok (i, rest) :=
  decode_eq_ok_iff.2 ⟨_, lookup_byte h i.mnemonic, rfl⟩

/-- Settles O6: the lookup finds the entry of the opcode byte, and the operand bytes are the instruction's. -/
theorem decodeOfEncodeIsTheInstruction : Obligations.DecodeOfEncodeIsTheInstruction :=
  fun m i rest h => ⟨decode_encode h i rest, length_encode m i⟩

/-- Settles O7: the opcode byte the lookup matched is the one the map gives the instruction. -/
theorem decodedBytesAreTheEncoding : Obligations.DecodedBytesAreTheEncoding := by
  intro m bytes rest i hd
  obtain ⟨opc, hl, rfl⟩ := decode_eq_ok_iff.1 hd
  rw [encode, lookup_eq_some_byte hl, List.cons_append]

/-- Decoding rejects an opcode byte by name exactly where the lookup finds nothing: a found entry decodes, or its
operand bytes are cut off. -/
theorem decode_eq_unsupportedOpcode_iff {m : OpcodeMap} {opc : Byte} {bytes : List Byte} :
    decode m (opc :: bytes) = .error (.unsupportedOpcode opc) ↔ m.lookup opc = none := by
  refine ⟨fun hd => ?_, fun hl => decode_of_lookup_none hl bytes⟩
  cases hl : m.lookup opc with
  | none => rfl
  | some mn =>
    simp only [decode, hl] at hd
    split at hd <;> cases hd

/-- Under a map of distinct bytes, the byte values with an entry are the thirteen opcode bytes. -/
theorem perm_legal_opcodes {m : OpcodeMap} (h : m.distinct = true) :
    ((List.range 256).filter fun n => !(m.lookup (trunc8 n)).isNone).Perm
      (Mnemonic.all.map fun mn => (m.byte mn).toNat) := by
  have hbytes : (Mnemonic.all.map fun mn => (m.byte mn).toNat).Nodup :=
    List.Nodup.map (fun _ _ heq => OpcodeMap.byte_injective h (BitVec.eq_of_toNat_eq heq)) (by decide)
  rw [List.perm_ext_iff_of_nodup (List.nodup_range.filter _) hbytes]
  intro n
  have hlegal : (n < 256 ∧ m.lookup (trunc8 n) ≠ none) ↔ ∃ mn, (m.byte mn).toNat = n := by
    rw [Ne, lookup_eq_none, not_forall_not]
    constructor
    · rintro ⟨hn, mn, hmn⟩
      exact ⟨mn, by rw [hmn, trunc8_toNat, Nat.mod_eq_of_lt hn]⟩
    · rintro ⟨mn, rfl⟩
      exact ⟨(m.byte mn).isLt, mn, by simp [trunc8]⟩
  simpa [Mnemonic.mem_all, Option.isSome_iff_ne_none] using hlegal

/-- 256 byte values, less the thirteen of the table (30_encoding.md R52). -/
theorem length_illegal_opcodes {m : OpcodeMap} (h : m.distinct = true) :
    ((List.range 256).filter fun n => (m.lookup (trunc8 n)).isNone).length = 243 := by
  have hsplit := (List.range 256).length_eq_length_filter_add fun n => (m.lookup (trunc8 n)).isNone
  have hlegal := (perm_legal_opcodes h).length_eq
  have hall : Mnemonic.all.length = 13 := rfl
  simp only [List.length_range, List.length_map] at hsplit hlegal
  omega

/-- The default opcode bytes are distinct (30_encoding.md R50). -/
theorem OpcodeMap.default_distinct : OpcodeMap.default.distinct = true := by decide

/-- Settles O8: the lookup finds nothing exactly when no entry has the byte; and the default map's bytes are
distinct. -/
theorem onlyTableOpcodesDecode : Obligations.OnlyTableOpcodesDecode :=
  ⟨fun _ _ _ => decode_eq_unsupportedOpcode_iff.trans lookup_eq_none,
    length_illegal_opcodes OpcodeMap.default_distinct⟩

/-- Settles O4: each word decodes by evaluation. -/
theorem writtenOutWordsDecode : Obligations.WrittenOutWordsDecode := by
  unfold Obligations.WrittenOutWordsDecode
  decide

/-- Settles O5: entry by entry. -/
theorem defaultOpcodesFitTheirLayout : Obligations.DefaultOpcodesFitTheirLayout := by
  refine ⟨OpcodeMap.default_distinct, fun mn => ?_⟩
  cases mn <;> decide

end Sys2Proof.Machine
end

section
/-! The fetch: which bytes it reads, and its answer in each case. -/

namespace Sys2Proof.Machine

/-! ### The addresses of an instruction's bytes -/

theorem State.fits_iff {s : State} {w : Nat} :
    s.fits w ↔ (s.params.pcOverflow = .fault → s.pc.toNat + w ≤ 256) := by
  unfold State.fits
  split <;> simp_all

/-- The cell at `pc (+) j` is the same in both settings of `PC_OVERFLOW` (20_memory.md R37). -/
theorem State.pcPlus_cell_toNat (s : State) (j : Nat) :
    ((s.pcPlus j).setWidth 8).toNat = (s.pc.toNat + j) % 256 := by
  unfold State.pcPlus addrPlus
  split <;> simp

theorem State.pcPlus_zero_cell (s : State) : (s.pcPlus 0).setWidth 8 = s.pc.setWidth 8 :=
  BitVec.eq_of_toNat_eq ((s.pcPlus_cell_toNat 0).trans (BitVec.toNat_setWidth 8 s.pc).symm)

theorem State.pcPlus_toNat_of_fault {s : State} {j : Nat} (h : s.params.pcOverflow = .fault)
    (hj : s.pc.toNat + j < 512) : (s.pcPlus j).toNat = s.pc.toNat + j := by
  rw [State.pcPlus, h, addrPlus_fault_toNat _ _ hj]

/-- Under `wrap` every address computed from pc is a cell's (20_memory.md R38). -/
theorem State.pcPlus_lt_of_wrap {s : State} (h : s.params.pcOverflow = .wrap) (j : Nat) :
    (s.pcPlus j).toNat < 256 := by
  rw [State.pcPlus, h, addrPlus_wrap_toNat]
  omega

/-- The bytes of an instruction that fits are at addresses below 256. -/
theorem State.pcPlus_lt_of_fits {s : State} {w j : Nat} (h : s.fits w) (hj : j < w) : (s.pcPlus j).toNat < 256 := by
  cases ho : s.params.pcOverflow with
  | wrap => exact State.pcPlus_lt_of_wrap ho j
  | fault =>
    have hw := State.fits_iff.1 h ho
    rw [State.pcPlus_toNat_of_fault ho] <;> omega

/-! ### The bytes at pc -/

/-- The byte a fetch reads at `pc (+) j`, where it can. -/
def State.byteAt (s : State) (j : Nat) : Byte := s.memRead ((s.pcPlus j).setWidth 8)

theorem State.byteAt_zero (s : State) : s.byteAt 0 = s.memRead (s.pc.setWidth 8) := by
  rw [State.byteAt, State.pcPlus_zero_cell]

theorem State.instrBytes_three (s : State) : instrBytes s 3 = [s.byteAt 0, s.byteAt 1, s.byteAt 2] := rfl

/-- The instruction of an entry with the two bytes that follow the opcode, of which it uses what it has. -/
def State.instrAt (s : State) (mn : Mnemonic) : Instr := mn.build (s.byteAt 1) (s.byteAt 2)

@[simp] theorem State.instrAt_mnemonic (s : State) (mn : Mnemonic) : (s.instrAt mn).mnemonic = mn :=
  Mnemonic.build_mnemonic _ _ mn

@[simp] theorem State.instrAt_width (s : State) (mn : Mnemonic) : (s.instrAt mn).width = mn.width :=
  Mnemonic.build_width _ _ mn

theorem fetchByte_of_fault {s : State} {a : CodeAddr} (h : s.params.pcOverflow = .fault) (ha : 255 < a.toNat) :
    fetchByte s a = .error (.boundsError .memory a.toNat s.pc) := by
  simp [fetchByte, h, ha]

theorem fetchByte_pcPlus_of_fits {s : State} {w j : Nat} (h : s.fits w) (hj : j < w) :
    fetchByte s (s.pcPlus j) = .ok (s.byteAt j) :=
  fetchByte_of_le fun _ => Nat.le_of_lt_succ (State.pcPlus_lt_of_fits h hj)

/-! ### The operand fetch, by the width of the entry -/

theorem fetchOperands_of_fits {s : State} {mn : Mnemonic} (h : s.fits mn.width) :
    fetchOperands s mn = .ok (s.instrAt mn) := by
  have hbuild : ∀ op1 op2, (1 < mn.width → op1 = s.byteAt 1) → (2 < mn.width → op2 = s.byteAt 2) →
      mn.build op1 op2 = s.instrAt mn := fun _ _ => Mnemonic.build_congr
  unfold fetchOperands fetchOp1 fetchOp2
  obtain hw | hw | hw := Mnemonic.width_cases mn
  · rw [if_pos hw, hbuild 0 0 (by omega) (by omega)]
  · rw [fetchByte_pcPlus_of_fits (j := 1) h (by omega), if_neg (by omega)]
    simp only [hw, if_true]
    rw [hbuild _ 0 (fun _ => rfl) (by omega)]
  · rw [fetchByte_pcPlus_of_fits (j := 1) h (by omega), fetchByte_pcPlus_of_fits (j := 2) h (by omega)]
    simp [hw, State.instrAt]

/-- The first operand byte that cannot be fetched is at address 256. -/
theorem fetchOperands_of_past_top {s : State} {mn : Mnemonic} (ho : s.params.pcOverflow = .fault)
    (hpc : s.pc.toNat ≤ 255) (hw : 256 < s.pc.toNat + mn.width) :
    fetchOperands s mn = .error (.boundsError .memory 256 s.pc) := by
  have past : ∀ j, s.pc.toNat + j = 256 → fetchByte s (s.pcPlus j) = .error (.boundsError .memory 256 s.pc) := by
    intro j hj
    have hp : (s.pcPlus j).toNat = 256 := by rw [State.pcPlus_toNat_of_fault ho (by omega), hj]
    rw [fetchByte_of_fault ho (by omega), hp]
  unfold fetchOperands fetchOp1 fetchOp2
  obtain hw' | hw' | hw' := Mnemonic.width_cases mn
  · omega
  · simp [hw', past 1 (by omega)]
  · by_cases h1 : s.pc.toNat + 1 = 256
    · simp [hw', past 1 h1]
    · have h2 : s.fits 2 := State.fits_iff.2 fun _ => by omega
      simp [hw', fetchByte_pcPlus_of_fits (j := 1) h2, past 2 (by omega)]

/-! ### The fetch -/

/-- The opcode byte at pc can be fetched: always under `wrap`. -/
def State.opcodeFetchable (s : State) : Prop := s.params.pcOverflow = .fault → s.pcFetchable

theorem fetch_of_pc_past_top {s : State} (ho : s.params.pcOverflow = .fault) (hpc : 255 < s.pc.toNat) :
    fetch s = .error (.boundsError .memory s.pc.toNat s.pc) := by
  simp [fetch, fetchByte_of_fault ho hpc]

theorem fetch_of_lookup_eq_some {s : State} {mn : Mnemonic} (hpc : s.opcodeFetchable)
    (hl : s.params.opcodeMap.lookup (s.memRead (s.pc.setWidth 8)) = some mn) : fetch s = fetchOperands s mn := by
  simp [fetch, fetchByte_of_le hpc, hl]

theorem State.opcodeFetchable_of_fits {s : State} {mn : Mnemonic} (h : s.fits mn.width) : s.opcodeFetchable := by
  intro ho
  have hw := State.fits_iff.1 h ho
  obtain hmn | hmn | hmn := Mnemonic.width_cases mn <;> (unfold State.pcFetchable; omega)

/-- The inversion of the fetch: its answer in each case, with the first failing fetch in the priority of
60_exceptions.md R102. -/
theorem fetch_answers (s : State) :
    (s.params.pcOverflow = .fault ∧ 255 < s.pc.toNat ∧ fetch s = .error (.boundsError .memory s.pc.toNat s.pc)) ∨
    (s.opcodeFetchable ∧ s.params.opcodeMap.lookup (s.memRead (s.pc.setWidth 8)) = none ∧
      fetch s = .error (.unsupportedOpcode (s.memRead (s.pc.setWidth 8)) s.pc)) ∨
    (s.params.pcOverflow = .fault ∧ fetch s = .error (.boundsError .memory 256 s.pc)) ∨
    ∃ mn, s.params.opcodeMap.lookup (s.memRead (s.pc.setWidth 8)) = some mn ∧ s.fits mn.width ∧
      fetch s = .ok (s.instrAt mn) := by
  by_cases hpc : s.opcodeFetchable
  · right
    cases hl : s.params.opcodeMap.lookup (s.memRead (s.pc.setWidth 8)) with
    | none => exact .inl ⟨hpc, rfl, fetch_of_lookup_eq_none (fetchByte_of_le hpc) hl⟩
    | some mn =>
      right
      rw [fetch_of_lookup_eq_some hpc hl]
      by_cases hfits : s.fits mn.width
      · exact .inr ⟨mn, rfl, hfits, fetchOperands_of_fits hfits⟩
      · obtain ⟨ho, hw⟩ : s.params.pcOverflow = .fault ∧ ¬ s.pc.toNat + mn.width ≤ 256 := by
          simpa [State.fits_iff] using hfits
        exact .inl ⟨ho, fetchOperands_of_past_top ho (hpc ho) (by omega)⟩
  · obtain ⟨ho, hgt⟩ : s.params.pcOverflow = .fault ∧ 255 < s.pc.toNat := by
      simpa [State.opcodeFetchable, State.pcFetchable] using hpc
    exact .inl ⟨ho, hgt, fetch_of_pc_past_top ho hgt⟩

/-- What a fetch gives is the instruction of the opcode byte's entry and the bytes that follow, where it fits. -/
theorem fetch_eq_ok_iff {s : State} {i : Instr} :
    fetch s = .ok i ↔
      s.params.opcodeMap.lookup (s.memRead (s.pc.setWidth 8)) = some i.mnemonic ∧ s.fits i.width ∧
        i = s.instrAt i.mnemonic := by
  constructor
  · intro hf
    obtain ⟨-, -, h⟩ | ⟨-, -, h⟩ | ⟨-, h⟩ | ⟨mn, hl, hfits, h⟩ := fetch_answers s
    case inr.inr.inr =>
      cases h.symm.trans hf
      simpa using And.intro hl hfits
    all_goals cases h.symm.trans hf
  · rintro ⟨hl, hfits, hi⟩
    rw [fetch_of_lookup_eq_some (State.opcodeFetchable_of_fits hfits) hl, fetchOperands_of_fits hfits, ← hi]

/-- A fetch reads what the decoder does, where the instruction fits. -/
theorem fetch_of_decode {s : State} {i : Instr} {rest : List Byte}
    (hd : decode s.params.opcodeMap (instrBytes s 3) = .ok (i, rest)) (hfits : s.fits i.width) :
    fetch s = .ok i := by
  obtain ⟨opc, hl, hbytes⟩ := decode_eq_ok_iff.1 hd
  rw [State.instrBytes_three, List.cons.injEq] at hbytes
  obtain ⟨rfl, hops⟩ := hbytes
  rw [State.byteAt_zero] at hl
  exact fetch_eq_ok_iff.2 ⟨hl, hfits, Instr.eq_build_of_operands hops⟩

/-- A fetch reads what the encoder wrote, where the instruction fits. -/
theorem fetch_of_encode {s : State} {i : Instr} (hm : s.params.wellFormed = true)
    (henc : instrBytes s i.width = encode s.params.opcodeMap i) (hfits : s.fits i.width) : fetch s = .ok i := by
  have hprefix : instrBytes s 3 = encode s.params.opcodeMap i ++ (instrBytes s 3).drop i.width := by
    have htake : (instrBytes s 3).take i.width = instrBytes s i.width := by
      obtain hw | hw | hw := Instr.width_cases i <;> rw [hw] <;> rfl
    rw [← henc, ← htake, List.take_append_drop]
  have hd := decode_encode hm i ((instrBytes s 3).drop i.width)
  rw [← hprefix] at hd
  exact fetch_of_decode hd hfits

/-! ### The step of what is at pc -/

/-- Settles O9: the fetch reads the decoded instruction, and a Running step runs what it fetches. -/
theorem stepRunsTheDecodedInstruction : Obligations.StepRunsTheDecodedInstruction :=
  fun _ _ _ hrun hd hfits => step_of_fetch_ok hrun (fetch_of_decode hd hfits)

/-- Settles O10: the bytes at pc decode to the instruction whose encoding they are. -/
theorem stepRunsTheEncodedInstruction : Obligations.StepRunsTheEncodedInstruction :=
  fun _ _ hrun hm henc hfits => step_of_fetch_ok hrun (fetch_of_encode hm henc hfits)

/-- Settles O16: the first failing fetch is the opcode's, or the operand byte's at 256. -/
theorem fetchPastTheTopFaults : Obligations.FetchPastTheTopFaults := by
  refine ⟨fun s hrun ho hpc => step_of_fetch_error hrun (fetch_of_pc_past_top ho hpc), ?_⟩
  intro s mn hrun ho hpc hl hw
  refine step_of_fetch_error hrun ?_
  rw [fetch_of_lookup_eq_some (fun _ => hpc) hl, fetchOperands_of_past_top ho hpc hw]

end Sys2Proof.Machine
end

section
/-! Placing an instruction: the bytes stored from pc are the bytes the next fetch reads. -/

namespace Sys2Proof.Machine

/-! ### What placing keeps -/

@[simp] theorem placeByte_pc (s : State) (a : CodeAddr) (v : Byte) : (placeByte s a v).pc = s.pc := by
  unfold placeByte
  split <;> rfl

@[simp] theorem placeByte_params (s : State) (a : CodeAddr) (v : Byte) : (placeByte s a v).params = s.params := by
  unfold placeByte
  split <;> rfl

@[simp] theorem placeBytes_pc (s : State) (k : Nat) (vs : List Byte) : (placeBytes s k vs).pc = s.pc := by
  induction vs generalizing s k with
  | nil => rfl
  | cons v vs ih => exact (ih _ _).trans (placeByte_pc ..)

@[simp] theorem placeBytes_params (s : State) (k : Nat) (vs : List Byte) :
    (placeBytes s k vs).params = s.params := by
  induction vs generalizing s k with
  | nil => rfl
  | cons v vs ih => exact (ih _ _).trans (placeByte_params ..)

@[simp] theorem placeInstr_pc (s : State) (bytes : List Byte) : (placeInstr s bytes).pc = s.pc :=
  placeBytes_pc s 0 bytes

@[simp] theorem placeInstr_params (s : State) (bytes : List Byte) : (placeInstr s bytes).params = s.params :=
  placeBytes_params s 0 bytes

theorem placeInstr_status (s : State) (bytes : List Byte) : (placeInstr s bytes).status = .running := rfl

/-- Whether an instruction fits depends on pc and `PC_OVERFLOW` alone. -/
theorem State.fits_congr {s t : State} (hpc : t.pc = s.pc) (hparams : t.params = s.params) (w : Nat) :
    t.fits w ↔ s.fits w := by
  simp [State.fits_iff, hpc, hparams]

/-! ### What placing stores -/

theorem State.byteAt_memWrite_same (s : State) (k : Nat) (v : Byte) :
    (s.memWrite ((s.pcPlus k).setWidth 8) v).byteAt k = v :=
  s.memRead_memWrite_same _ v

/-- The bytes at pc are at different cells, 256 of them at most. -/
theorem State.byteAt_memWrite_other (s : State) {j k : Nat} (v : Byte) (hjk : j < k) (hk : k < 256) :
    (s.memWrite ((s.pcPlus k).setWidth 8) v).byteAt j = s.byteAt j := by
  refine s.memRead_memWrite_other v fun heq => ?_
  have hcell := congrArg BitVec.toNat heq
  rw [State.memWrite_pcPlus, State.pcPlus_cell_toNat, State.pcPlus_cell_toNat] at hcell
  omega

/-- Placing bytes that fit stores each of them. -/
theorem placeBytes_cons_of_fits {s : State} {k : Nat} {v : Byte} {vs : List Byte}
    (h : s.fits (k + (v :: vs).length)) :
    placeBytes s k (v :: vs) = placeBytes (s.memWrite ((s.pcPlus k).setWidth 8) v) (k + 1) vs := by
  have hlt : (s.pcPlus k).toNat < 256 := State.pcPlus_lt_of_fits h (by simp)
  rw [placeBytes, placeByte, if_pos hlt]

theorem State.fits_tail_memWrite {s : State} {k : Nat} {v : Byte} {vs : List Byte}
    (h : s.fits (k + (v :: vs).length)) (c w : Byte) : (s.memWrite c w).fits (k + 1 + vs.length) := by
  rw [List.length_cons, ← Nat.add_assoc, Nat.add_right_comm] at h
  exact (State.fits_congr rfl rfl _).2 h

/-- The bytes before the placed ones are kept. -/
theorem placeBytes_byteAt_of_lt {s : State} {j k : Nat} {vs : List Byte} (hfits : s.fits (k + vs.length))
    (hlen : k + vs.length ≤ 256) (hj : j < k) : (placeBytes s k vs).byteAt j = s.byteAt j := by
  induction vs generalizing s k with
  | nil => rfl
  | cons v vs ih =>
    have hlen' : k + (vs.length + 1) ≤ 256 := hlen
    rw [placeBytes_cons_of_fits hfits, ih (State.fits_tail_memWrite hfits _ v) (by omega) (by omega),
      State.byteAt_memWrite_other s v hj (by omega)]

/-- The placed bytes are what stands from `pc (+) k` on. -/
theorem map_byteAt_placeBytes {s : State} {k : Nat} {vs : List Byte} (hfits : s.fits (k + vs.length))
    (hlen : k + vs.length ≤ 256) : (List.range' k vs.length).map (placeBytes s k vs).byteAt = vs := by
  induction vs generalizing s k with
  | nil => rfl
  | cons v vs ih =>
    have hlen' : k + (vs.length + 1) ≤ 256 := hlen
    have hfits' := State.fits_tail_memWrite hfits ((s.pcPlus k).setWidth 8) v
    rw [placeBytes_cons_of_fits hfits, List.length_cons, List.range'_succ, List.map_cons,
      ih hfits' (by omega), placeBytes_byteAt_of_lt hfits' (by omega) (Nat.lt_succ_self k),
      State.byteAt_memWrite_same]

theorem instrBytes_placeInstr {s : State} {bytes : List Byte} (hfits : s.fits bytes.length)
    (hlen : bytes.length ≤ 256) : instrBytes (placeInstr s bytes) bytes.length = bytes := by
  have hplaced := map_byteAt_placeBytes (s := s) (k := 0) (vs := bytes) (by simpa using hfits) (by omega)
  rwa [← List.range_eq_range'] at hplaced

/-- Settles O11: the placed bytes are the encoding, at an unchanged pc, so the step runs the encoded instruction. -/
theorem placedInstructionRuns : Obligations.PlacedInstructionRuns := by
  intro s i hm hfits
  have hlen := length_encode s.params.opcodeMap i
  have hbytes : instrBytes (placeInstr s (encode s.params.opcodeMap i)) i.width = encode s.params.opcodeMap i := by
    rw [← hlen]
    refine instrBytes_placeInstr (by rwa [hlen]) ?_
    obtain hw | hw | hw := Instr.width_cases i <;> omega
  refine stepRunsTheEncodedInstruction _ i (placeInstr_status _ _) ?_ ?_ ?_
  · rwa [placeInstr_params]
  · rwa [placeInstr_params]
  · exact (State.fits_congr (placeInstr_pc _ _) (placeInstr_params _ _) _).2 hfits

end Sys2Proof.Machine
end

section
/-! What the effect of an instruction changes and what it leaves unchanged, field by field. -/

namespace Sys2Proof.Machine

theorem Effect.params_eq {s t : State} {i : Instr} (h : Effect s i t) : t.params = s.params := by
  cases h with
  | jeq | jne => split <;> rfl
  | _ => rfl

/-- Only PUSH and CALL write memory, and only at the decremented SP (20_memory.md R31). -/
theorem Effect.memRead_eq {s t : State} {i : Instr} (h : Effect s i t) {c : Byte}
    (hc : writesStack i = true → s.sp - 1 ≠ c) : t.memRead c = s.memRead c := by
  cases h with
  | push => rw [State.advance_memRead, State.storeAtSp_memRead, State.decSp_sp, if_neg (hc rfl), State.decSp_memRead]
  | call => rw [State.jump_memRead, State.pushValue_memRead, if_neg (hc rfl)]
  | jeq | jne => split <;> rfl
  | _ => rfl

theorem State.wf_storeAtSp {s : State} (v : Byte) (h : Memory.wf s.mem = true) :
    Memory.wf (s.storeAtSp v).mem = true :=
  State.wf_memWrite s.sp v h

theorem Effect.mem_wf {s t : State} {i : Instr} (h : Effect s i t) (hwf : Memory.wf s.mem = true) :
    Memory.wf t.mem = true := by
  cases h with
  | push | call => exact State.wf_storeAtSp (s := s.decSp) _ hwf
  | jeq | jne => split <;> exact hwf
  | _ => exact hwf

/-- An effect writes no register outside the instruction's row (10_state.md R16). -/
theorem Effect.reg_eq {s t : State} {i : Instr} (h : Effect s i t) {r : Reg} (hr : r.val ∉ writtenRegs i) :
    t.reg r = s.reg r := by
  cases h with
  | ldi ha | add ha | mul ha =>
    have hra := by simpa [writtenRegs, ha, Fin.val_inj] using hr
    exact State.setReg_reg_other s _ (Ne.symm hra)
  | push | call =>
    have hsp : r ≠ spIndex := by simpa [writtenRegs, spIndex, Fin.ext_iff] using hr
    exact State.decSp_reg_other s hsp
  | ret =>
    have hsp : r ≠ spIndex := by simpa [writtenRegs, spIndex, Fin.ext_iff] using hr
    exact State.incSp_reg_other s hsp
  | @pop a ra ha =>
    obtain ⟨hra, hsp⟩ : r ≠ ra ∧ r ≠ spIndex := by simpa [writtenRegs, spIndex, ha, Fin.ext_iff] using hr
    exact (State.incSp_reg_other _ hsp).trans (State.setReg_reg_other s _ hra.symm)
  | jeq | jne => split <;> rfl
  | _ => rfl

/-- pc goes past the instruction, or to a byte (40_control_unit.md R67). -/
theorem Effect.pc_cases {s t : State} {i : Instr} (h : Effect s i t) :
    t.pc = s.pcPlus i.width ∨ ∃ b : Byte, t.pc = b.setWidth 9 := by
  cases h with
  | call | ret | jmp => exact .inr ⟨_, rfl⟩
  | jeq =>
    split
    · exact .inr ⟨_, rfl⟩
    · exact .inl rfl
  | jne =>
    split
    · exact .inl rfl
    · exact .inr ⟨_, rfl⟩
  | _ => exact .inl rfl

/-- Only PRN appends to the output log, the byte of the register it names (10_state.md R23). -/
theorem Effect.out_cases {s t : State} {i : Instr} (h : Effect s i t) :
    t.out = s.out ∨ ∃ (a : Byte) (ra : Reg), i = .prn a ∧ a.toNat = ra.val ∧ t.out = s.out ++ [s.reg ra] := by
  cases h with
  | prn ha => exact .inr ⟨_, _, rfl, ha, rfl⟩
  | jeq | jne => exact .inl (by split <;> rfl)
  | _ => exact .inl rfl

/-- Settles O43: an error writes the status alone, and no effect writes the parameters. -/
theorem parametersNeverChange : Obligations.ParametersNeverChange := by
  intro s t h
  obtain ⟨-, ⟨e, -, rfl⟩ | ⟨i, -, -, heff⟩ | ⟨i, v, -, -, rfl⟩⟩ := step_next_cases h
  · rfl
  · exact heff.params_eq
  · rfl

/-- Settles O39: an error keeps the registers, and an effect those outside the instruction's row. -/
theorem registersWrittenAreTheTables : Obligations.RegistersWrittenAreTheTables := by
  intro i s t r h hne
  rcases exec_next_cases h with ⟨-, heff⟩ | ⟨v, -, rfl⟩
  · exact not_imp_comm.1 heff.reg_eq hne
  · exact absurd rfl hne

end Sys2Proof.Machine
end

section
/-! Errors: what raises one, what it records, and what it leaves of the state. -/

namespace Sys2Proof.Machine

/-- Settles O15: the operand check raises the error of the first operand that names no register. -/
theorem illegalRegisterOperandFaults : Obligations.IllegalRegisterOperandFaults :=
  fun _ s _ hv => exec_of_illegal hv s

/-- The two errors a fetch can raise, each recording the pc of its instruction. -/
theorem fetch_error_forms {s : State} {e : CoreError} (h : fetch s = .error e) :
    (e = .unsupportedOpcode (s.memRead (s.pc.setWidth 8)) s.pc ∧ s.opcodeFetchable ∧
      s.params.opcodeMap.lookup (s.memRead (s.pc.setWidth 8)) = none) ∨
    ∃ n, e = .boundsError .memory n s.pc ∧ s.params.pcOverflow = .fault ∧ (n = s.pc.toNat ∧ 255 < n ∨ n = 256) := by
  obtain ⟨ho, hpc, hf⟩ | ⟨hpc, hl, hf⟩ | ⟨ho, hf⟩ | ⟨mn, -, -, hf⟩ := fetch_answers s <;> cases hf.symm.trans h
  · exact .inr ⟨_, rfl, ho, .inl ⟨rfl, hpc⟩⟩
  · exact .inl ⟨rfl, hpc, hl⟩
  · exact .inr ⟨_, rfl, ho, .inr rfl⟩

/-- An effect of a Running state raises no error. -/
theorem Effect.status_ne_faulted {s t : State} {i : Instr} (h : Effect s i t) (hrun : s.status = .running)
    (e : CoreError) : t.status ≠ .faulted e := by
  by_cases hi : i = .hlt
  · subst hi
    simp [h.status_of_hlt]
  · simp [h.status_of_ne_hlt hi, hrun]

/-- A step that ends in an error raised it from the state before. -/
theorem eq_raise_of_step_faulted {s t : State} {e : CoreError} (h : step s = .next t) (ht : t.status = .faulted e) :
    t = s.raise e := by
  obtain ⟨hrun, ⟨e', -, rfl⟩ | ⟨i, -, -, heff⟩ | ⟨i, v, -, -, rfl⟩⟩ := step_next_cases h
  · cases ht
    rfl
  · exact absurd ht (heff.status_ne_faulted hrun e)
  · cases ht
    rfl

/-- Settles O17: a memory error is a fetch's, which only the setting `fault` raises. -/
theorem noMemoryErrorUnderWrap : Obligations.NoMemoryErrorUnderWrap := by
  intro s t n p hwrap h ht
  obtain hf | ⟨i, v, -, -, he⟩ := step_faulted_cases h ht
  · obtain ⟨he, -⟩ | ⟨n', -, hfault, -⟩ := fetch_error_forms hf
    · cases he
    · cases hwrap.symm.trans hfault
  · cases he

/-- Settles O18: every error is raised from the state before the step, and records its pc. -/
theorem errorWritesOnlyTheStatus : Obligations.ErrorWritesOnlyTheStatus := by
  intro s t e h ht
  refine ⟨eq_raise_of_step_faulted h ht, ?_⟩
  obtain hf | ⟨i, v, -, -, rfl⟩ := step_faulted_cases h ht
  · obtain ⟨rfl, -⟩ | ⟨n, rfl, -⟩ := fetch_error_forms hf
    · exact .inl ⟨_, rfl⟩
    · exact .inr ⟨_, _, rfl⟩
  · exact .inr ⟨_, _, rfl⟩

/-- Settles O13: the status's termination reason is the step's answer. -/
theorem terminalStateAnswersItsReason : Obligations.TerminalStateAnswersItsReason := by
  refine ⟨?_, ?_, ?_⟩
  · intro s hs
    exact step_of_terminationReason (by rw [hs]; rfl)
  · intro s opc p hs
    exact step_of_terminationReason (by rw [hs]; rfl)
  · intro s k n p hs
    exact step_of_terminationReason (by rw [hs]; rfl)

end Sys2Proof.Machine
end

section
/-! The machine's invariant: it holds at reset, and every step keeps it. -/

namespace Sys2Proof.Machine

/-! ### The range of pc (10_state.md R18) -/

theorem State.pcInRange_iff {s : State} :
    s.pcInRange ↔ (s.params.pcOverflow = .wrap → s.pc.toNat ≤ 255) ∧
      (s.params.pcOverflow = .fault → s.pc.toNat ≤ 256) := by
  unfold State.pcInRange
  split <;> simp_all

/-- In its range, pc is past 255 only where its opcode byte cannot be fetched. -/
theorem State.pcInRange.pcFetchable {s : State} (hr : s.pcInRange) (hf : s.opcodeFetchable) : s.pcFetchable := by
  cases ho : s.params.pcOverflow with
  | wrap => exact (State.pcInRange_iff.1 hr).1 ho
  | fault => exact hf ho

theorem State.pcPlus_le_of_fits {s : State} {w : Nat} (h : s.fits w) : (s.pcPlus w).toNat ≤ 256 := by
  cases ho : s.params.pcOverflow with
  | wrap => exact (State.pcPlus_lt_of_wrap ho w).le
  | fault =>
    have hw := State.fits_iff.1 h ho
    rw [State.pcPlus_toNat_of_fault ho] <;> omega

theorem Effect.pcInRange {s t : State} {i : Instr} (h : Effect s i t) (hfits : s.fits i.width) : t.pcInRange := by
  rw [State.pcInRange_iff, h.params_eq]
  obtain hpc | ⟨b, hpc⟩ := h.pc_cases
  · rw [hpc]
    exact ⟨fun ho => Nat.le_of_lt_succ (State.pcPlus_lt_of_wrap ho _), fun _ => State.pcPlus_le_of_fits hfits⟩
  · have hb : t.pc.toNat < 256 := by simp [hpc]; omega
    exact ⟨fun _ => by omega, fun _ => by omega⟩

/-! ### The status is explained -/

/-- An error writes the status alone, so it keeps the invariant where the state explains it. -/
theorem State.Inv.raise {s : State} (h : s.Inv) {e : CoreError} (he : (s.raise e).statusExplained) :
    (s.raise e).Inv :=
  ⟨h.mem_wf, h.params_wf, h.pc_range, he⟩

theorem raise_explained_of_fetch_error {s : State} {e : CoreError} (hr : s.pcInRange) (h : fetch s = .error e) :
    (s.raise e).statusExplained := by
  obtain ⟨rfl, hpc, hl⟩ | ⟨n, rfl, ho, hn⟩ := fetch_error_forms h
  · exact ⟨rfl, hr.pcFetchable hpc, rfl, hl⟩
  · have hpc := (State.pcInRange_iff.1 hr).2 ho
    exact ⟨rfl, ho, by omega⟩

theorem pcFetchable_of_fetch_ok {s : State} {i : Instr} (hr : s.pcInRange) (h : fetch s = .ok i) : s.pcFetchable :=
  hr.pcFetchable (State.opcodeFetchable_of_fits (fetch_eq_ok_iff.1 h).2.1)

theorem raise_explained_of_operand {s : State} {i : Instr} {v : Byte} (hr : s.pcInRange) (h : fetch s = .ok i)
    (hv : 8 ≤ v.toNat) : (s.raise (.boundsError .register v.toNat s.pc)).statusExplained :=
  ⟨rfl, pcFetchable_of_fetch_ok hr h, hv, Nat.le_of_lt_succ v.isLt⟩

theorem halt_explained {s : State} (hr : s.pcInRange) (h : fetch s = .ok .hlt) :
    (s.advance 1).halt.statusExplained := by
  have hpc : s.pc.toNat ≤ 255 := pcFetchable_of_fetch_ok hr h
  have hcell : (s.pc.setWidth 8).setWidth 9 = s.pc := BitVec.eq_of_toNat_eq (by simp; omega)
  refine ⟨s.pc.setWidth 8, ?_, (fetch_eq_ok_iff.1 h).1⟩
  rw [hcell]
  rfl

theorem Effect.statusExplained {s t : State} {i : Instr} (h : Effect s i t) (hr : s.pcInRange)
    (hrun : s.status = .running) (hf : fetch s = .ok i) : t.statusExplained := by
  by_cases hi : i = .hlt
  · subst hi
    cases h
    exact halt_explained hr hf
  · simp [State.statusExplained, h.status_of_ne_hlt hi, hrun]

/-! ### The invariant -/

theorem Effect.inv {s t : State} {i : Instr} (h : Effect s i t) (hinv : s.Inv) (hrun : s.status = .running)
    (hf : fetch s = .ok i) : t.Inv where
  mem_wf := h.mem_wf hinv.mem_wf
  params_wf := by rw [h.params_eq, hinv.params_wf]
  pc_range := h.pcInRange (fetch_eq_ok_iff.1 hf).2.1
  status_explained := h.statusExplained hinv.pc_range hrun hf

/-- Settles O44: the effect keeps each part of the invariant, and the state explains every error. -/
theorem stepKeepsTheInvariant : Obligations.StepKeepsTheInvariant := by
  intro s t hinv h
  obtain ⟨hrun, ⟨e, hf, rfl⟩ | ⟨i, hf, -, heff⟩ | ⟨i, v, hf, hv, rfl⟩⟩ := step_next_cases h
  · exact hinv.raise (raise_explained_of_fetch_error hinv.pc_range hf)
  · exact heff.inv hinv hrun hf
  · exact hinv.raise (raise_explained_of_operand hinv.pc_range hf (mem_and_le_of_firstIllegalOperand hv).2)

theorem State.resetWith_inv {p : Params} (hp : p.wellFormed = true) : (State.resetWith p).Inv where
  mem_wf := State.reset_mem_wf
  params_wf := hp
  pc_range := State.pcInRange_iff.2 ⟨fun _ => Nat.zero_le _, fun _ => Nat.zero_le _⟩
  status_explained := trivial

/-- Settles O2: pc is 0, the status Running and memory empty; the default reset state is the one of the
default parameters. -/
theorem resetMeetsInvariant : Obligations.ResetMeetsInvariant :=
  ⟨fun _ => State.resetWith_inv, State.resetWith_inv (p := Params.default) OpcodeMap.default_distinct⟩

/-- Settles O1: each piece of the reset state, by evaluation. -/
theorem resetValues : Obligations.ResetValues := by
  have hregs : ∀ r : Reg, State.reset.reg r = if r = spIndex then 0xF4 else 0 := by decide
  exact ⟨fun _ => rfl, State.reset_mem_wf, hregs, rfl, rfl, rfl, rfl, rfl, rfl, rfl⟩

end Sys2Proof.Machine
end

section
/-! The stack: PUSH, POP, CALL, and the pairs PUSH and POP, CALL and RET. -/

namespace Sys2Proof.Machine

/-! ### The stack pointer -/

theorem State.decSp_sp_toNat (s : State) : s.decSp.sp.toNat = (s.sp.toNat + 255) % 256 := by
  rw [State.decSp, State.setSp_sp, trunc8_toNat]

theorem State.decSp_reg (s : State) (r : Reg) : s.decSp.reg r = if r = spIndex then s.decSp.sp else s.reg r := by
  split
  · subst r
    rfl
  · exact s.decSp_reg_other ‹_›

theorem State.setReg_setReg_same (s : State) (i : Reg) (v w : Byte) : (s.setReg i v).setReg i w = s.setReg i w := by
  simp [State.setReg]

theorem State.setReg_self (s : State) (i : Reg) : s.setReg i (s.reg i) = s := by
  simp [State.setReg, State.reg]

/-- `pop_value` undoes what `push_value` does to SP (43_stack.md R85, R86). -/
theorem State.incSp_decSp (s : State) : s.decSp.incSp = s := by
  have hsp : trunc8 (s.decSp.sp.toNat + 1) = s.sp := by
    rw [State.decSp_sp_toNat]
    exact BitVec.eq_of_toNat_eq (by rw [trunc8_toNat]; omega)
  rw [State.incSp, hsp]
  exact (s.setReg_setReg_same spIndex _ _).trans (s.setReg_self spIndex)

/-- The frame of a store at SP. -/
theorem State.storeAtSp_memRead_other (s : State) (v : Byte) {c : Byte} (h : c ≠ s.sp) :
    (s.storeAtSp v).memRead c = s.memRead c :=
  s.memRead_memWrite_other v h.symm

@[simp] theorem State.storeAtSp_memRead_sp (s : State) (v : Byte) : (s.storeAtSp v).memRead s.sp = v :=
  s.memRead_memWrite_same s.sp v

/-! ### PUSH and POP (43_stack.md R87 to R89) -/

/-- Settles O26: SP is decremented first, so PUSH R7 stores the decremented SP. -/
theorem pushStoresBelowTheTop : Obligations.PushStoresBelowTheTop := by
  intro s a ra ha
  exact ⟨_, exec_of_effect (.push ha), s.decSp_sp_toNat, rfl,
    (s.decSp.storeAtSp_memRead_sp _).trans (s.decSp_reg ra), fun _ => s.decSp.storeAtSp_memRead_other _,
    fun _ => s.decSp_reg_other, rfl, rfl, rfl, rfl, rfl⟩

/-- Settles O27: SP is incremented last, so POP R7 leaves the popped byte plus one. -/
theorem popLoadsTheTop : Obligations.PopLoadsTheTop := by
  intro s a ra ha
  refine ⟨_, exec_of_effect (.pop ha), ?loaded, ?sp, ?other, fun _ => rfl, rfl, rfl, rfl, rfl, rfl⟩
  case loaded =>
    intro hra
    refine ⟨(State.incSp_reg_other _ hra).trans (s.setReg_reg_same ra _), ?_⟩
    rw [State.advance_sp, State.incSp_sp_toNat, State.setReg_sp_other _ _ hra]
  case sp =>
    rintro rfl
    rw [State.advance_sp, State.incSp_sp_toNat, State.setReg_sp_same]
  case other =>
    intro r hra hsp
    exact (State.incSp_reg_other _ hsp).trans (s.setReg_reg_other _ hra.symm)

/-- After a PUSH the byte at SP is the one the named register holds, so the write of POP changes nothing. -/
theorem setReg_pushed (s : State) (ra : Reg) {t : State}
    (ht : t = (s.decSp.storeAtSp (s.decSp.reg ra)).advance 2) : t.setReg ra (t.memRead t.sp) = t := by
  have hpopped : t.memRead t.sp = t.reg ra := by
    subst t
    exact s.decSp.storeAtSp_memRead_sp _
  rw [hpopped, State.setReg_self]

/-- Settles O28: POP writes the register with the value PUSH stored, and no cell. -/
theorem pushThenPopRestores : Obligations.PushThenPopRestores := by
  intro s a ha
  refine ⟨_, _, exec_of_effect (.push (ra := ⟨a.toNat, ha⟩) rfl), exec_of_effect (.pop (ra := ⟨a.toNat, ha⟩) rfl),
    ?regs, fun _ => s.decSp.storeAtSp_memRead_other _⟩
  case regs =>
    intro r
    rw [setReg_pushed s _ rfl]
    have hregs : s.decSp.incSp.reg r = s.reg r := by rw [State.incSp_decSp]
    exact hregs

/-- Settles O38: the pushed cell is the one the next fetch reads, and it is below 256. -/
theorem storeIsSeenByTheNextFetch : Obligations.StoreIsSeenByTheNextFetch := by
  intro s a ra ha hpc
  have hcell : (s.pcPlus 2).setWidth 8 = s.decSp.sp := BitVec.eq_of_toNat_eq (by simp [hpc])
  have hle : (s.pcPlus 2).toNat ≤ 255 := hpc.trans_le (Nat.le_of_lt_succ s.decSp.sp.isLt)
  refine ⟨_, exec_of_effect (.push ha), (fetchByte_of_le fun _ => hle).trans ?_⟩
  rw [hcell]
  exact congrArg _ (s.decSp.storeAtSp_memRead_sp _)

/-! ### CALL and RET (44_control_flow.md R90, R91) -/

/-- Settles O29: the target is read before the push, and the pushed byte is the low 8 bits of the return address. -/
theorem callPushesTheReturnAddress : Obligations.CallPushesTheReturnAddress := by
  intro s a ra ha
  refine ⟨_, exec_of_effect (.call ha), rfl, s.decSp_sp_toNat, rfl, ?pushed,
    fun _ => s.decSp.storeAtSp_memRead_other _, fun _ => s.decSp_reg_other, rfl, rfl, rfl, rfl⟩
  case pushed =>
    rw [State.jump_memRead, State.pushValue, State.storeAtSp_memRead_sp, trunc8_toNat]

/-- Settles O31: RET pops the byte CALL pushed, the low 8 bits of an address that is below 256 under `wrap`. -/
theorem retResumesAfterCall : Obligations.RetResumesAfterCall := by
  intro s t u a ha hcall hsp hcell
  cases hcall.symm.trans (exec_of_effect (.call (ra := ⟨a.toNat, ha⟩) rfl))
  have hpc : (u.memRead u.sp).toNat = (s.pcPlus 2).toNat % 256 := by
    rw [hsp, hcell, State.jump_sp, State.jump_memRead, State.pushValue_memRead, State.pushValue_sp, if_pos rfl,
      trunc8_toNat]
  have hpc9 : ((u.memRead u.sp).setWidth 9).toNat = (s.pcPlus 2).toNat % 256 := by
    rw [BitVec.toNat_setWidth, hpc]
    omega
  refine ⟨_, exec_of_effect .ret, ?sp, hpc9, ?wrap⟩
  case sp => rw [State.jump_sp, State.incSp_sp, hsp, State.jump_sp, State.pushValue_sp, sub_add_cancel]
  case wrap =>
    intro hwrap
    refine BitVec.eq_of_toNat_eq (hpc9.trans ?_)
    exact Nat.mod_eq_of_lt (State.pcPlus_lt_of_wrap hwrap 2)

end Sys2Proof.Machine
end

section
/-! What an instruction reads: another byte in a cell, another value in a register or another output log that it does
not read changes nothing in its effect. -/

namespace Sys2Proof.Machine

/-! ### The effect of a conditional jump, by what FL says (44_control_flow.md R93, R94) -/

section
variable {s : State} {a : Byte} {ra : Reg}

theorem Effect.jeq_taken (ha : a.toNat = ra.val) (hfl : s.fl = .equal) :
    Effect s (.jeq a) (s.jump (s.reg ra)) := by
  simpa [hfl] using Effect.jeq (s := s) ha

theorem Effect.jeq_not_taken (ha : a.toNat = ra.val) (hfl : s.fl ≠ .equal) :
    Effect s (.jeq a) (s.advance 2) := by
  simpa [hfl] using Effect.jeq (s := s) ha

theorem Effect.jne_taken (ha : a.toNat = ra.val) (hfl : s.fl ≠ .equal) :
    Effect s (.jne a) (s.jump (s.reg ra)) := by
  simpa [hfl] using Effect.jne (s := s) ha

theorem Effect.jne_not_taken (ha : a.toNat = ra.val) (hfl : s.fl = .equal) :
    Effect s (.jne a) (s.advance 2) := by
  simpa [hfl] using Effect.jne (s := s) ha

end

/-! ### Memory (20_memory.md R31) -/

theorem State.byteAt_memWrite_of_ne {s : State} {c : Byte} {j : Nat} (h : (s.pcPlus j).setWidth 8 ≠ c) (v : Byte) :
    (s.memWrite c v).byteAt j = s.byteAt j :=
  s.memRead_memWrite_other v h.symm

/-- A fetch reads the instruction's own bytes alone. -/
theorem fetch_memWrite {s : State} {i : Instr} {c : Byte} (hf : fetch s = .ok i)
    (hc : ∀ j < i.width, (s.pcPlus j).setWidth 8 ≠ c) (v : Byte) : fetch (s.memWrite c v) = .ok i := by
  have hbyte : ∀ j < i.width, (s.memWrite c v).byteAt j = s.byteAt j :=
    fun j hj => State.byteAt_memWrite_of_ne (hc j hj) v
  obtain ⟨hl, hfits, hi⟩ := fetch_eq_ok_iff.1 hf
  have hwidth : 0 < i.width := by obtain hw | hw | hw := Instr.width_cases i <;> omega
  refine fetch_eq_ok_iff.2 ⟨?opcode, (State.fits_congr rfl rfl _).2 hfits, ?operands⟩
  case opcode =>
    rwa [State.memWrite_params, ← State.byteAt_zero, hbyte 0 hwidth, State.byteAt_zero]
  case operands =>
    refine hi.trans (Mnemonic.build_congr (fun h1 => ?_) (fun h2 => ?_))
    · exact (hbyte 1 h1).symm
    · exact (hbyte 2 h2).symm

/-- Another byte in a cell that the effect does not read leaves all but that cell as the effect does. -/
theorem Effect.exists_memWrite {s t : State} {i : Instr} (h : Effect s i t) {c : Byte}
    (hc : readsStack i = true → s.sp ≠ c) (v : Byte) :
    ∃ u, Effect (s.memWrite c v) i u ∧ (∀ b, b ≠ c → u.memRead b = t.memRead b) ∧ { u with mem := t.mem } = t := by
  have hcell : ∀ b, b ≠ c → (s.memWrite c v).memRead b = s.memRead b :=
    fun b hb => s.memRead_memWrite_other v hb.symm
  have hstore : ∀ w b, b ≠ c → ((s.memWrite c v).decSp.storeAtSp w).memRead b = (s.decSp.storeAtSp w).memRead b := by
    intro w b hb
    rw [State.storeAtSp_memRead, State.storeAtSp_memRead]
    exact if_congr Iff.rfl rfl (hcell b hb)
  cases h with
  | hlt => exact ⟨_, .hlt, hcell, rfl⟩
  | ldi ha => exact ⟨_, .ldi ha, hcell, rfl⟩
  | prn ha => exact ⟨_, .prn ha, hcell, rfl⟩
  | add ha hb => exact ⟨_, .add ha hb, hcell, rfl⟩
  | mul ha hb => exact ⟨_, .mul ha hb, hcell, rfl⟩
  | cmp ha hb => exact ⟨_, .cmp ha hb, hcell, rfl⟩
  | push ha => exact ⟨_, .push ha, hstore _, rfl⟩
  | call ha => exact ⟨_, .call ha, hstore _, rfl⟩
  | pop ha =>
    have heff := Effect.pop (s := s.memWrite c v) ha
    rw [State.memWrite_sp, hcell _ (hc rfl)] at heff
    exact ⟨_, heff, hcell, rfl⟩
  | ret =>
    have heff := Effect.ret (s := s.memWrite c v)
    rw [State.memWrite_sp, hcell _ (hc rfl)] at heff
    exact ⟨_, heff, hcell, rfl⟩
  | jmp ha => exact ⟨_, .jmp ha, hcell, rfl⟩
  | jeq ha =>
    split
    · exact ⟨_, .jeq_taken ha ‹_›, hcell, rfl⟩
    · exact ⟨_, .jeq_not_taken ha ‹_›, hcell, rfl⟩
  | jne ha =>
    split
    · exact ⟨_, .jne_not_taken ha ‹_›, hcell, rfl⟩
    · exact ⟨_, .jne_taken ha ‹_›, hcell, rfl⟩

/-- Settles O37: an error writes no cell, an effect only the one below SP; and neither the fetch nor the effect reads
the changed cell. -/
theorem onlyFetchAndStackReachMemory : Obligations.OnlyFetchAndStackReachMemory := by
  constructor
  · intro s t c h hne
    obtain ⟨-, ⟨e, -, rfl⟩ | ⟨i, hf, -, heff⟩ | ⟨i, v, -, -, rfl⟩⟩ := step_next_cases h
    · exact absurd rfl hne
    · obtain ⟨hw, hc⟩ : writesStack i = true ∧ s.sp - 1 = c := by
        simpa using mt heff.memRead_eq hne
      exact ⟨hc.symm.trans s.decSp_sp.symm, i, hf, hw⟩
    · exact absurd rfl hne
  · intro s t i c v h hf hc hsp
    obtain ⟨hrun, -⟩ := step_cases h
    rw [step_of_fetch_ok hrun hf] at h
    rw [step_of_fetch_ok (s := s.memWrite c v) hrun (fetch_memWrite hf hc v)]
    rcases exec_next_cases h with ⟨-, heff⟩ | ⟨x, hx, rfl⟩
    · obtain ⟨u, hu, hut⟩ := heff.exists_memWrite hsp v
      exact ⟨u, exec_of_effect hu, hut⟩
    · exact ⟨_, exec_of_illegal hx _, fun b hb => s.memRead_memWrite_other v hb.symm, rfl⟩

/-! ### Registers (10_state.md R16) -/

theorem State.setReg_comm (s : State) {i j : Reg} (h : i ≠ j) (v w : Byte) :
    (s.setReg i v).setReg j w = (s.setReg j w).setReg i v := by
  simp [State.setReg, Vector.set_comm _ _ (Fin.val_ne_of_ne h)]

theorem State.decSp_setReg (s : State) {r : Reg} (h : r ≠ spIndex) (v : Byte) :
    (s.setReg r v).decSp = s.decSp.setReg r v := by
  rw [State.decSp, State.setReg_sp_other _ _ h]
  exact s.setReg_comm h v _

theorem State.incSp_setReg (s : State) {r : Reg} (h : r ≠ spIndex) (v : Byte) :
    (s.setReg r v).incSp = s.incSp.setReg r v := by
  rw [State.incSp, State.setReg_sp_other _ _ h]
  exact s.setReg_comm h v _

theorem State.storeAtSp_setReg (s : State) {r : Reg} (h : r ≠ spIndex) (v w : Byte) :
    (s.setReg r v).storeAtSp w = (s.storeAtSp w).setReg r v := by
  rw [State.storeAtSp, State.setReg_sp_other _ _ h]
  rfl

/-- Another value in a register that the effect neither reads nor writes stays there. -/
theorem Effect.setReg_of_not_written {s t : State} {i : Instr} (h : Effect s i t) {r : Reg}
    (hr : r.val ∉ readRegs s.fl i) (hw : r.val ∉ writtenRegs i) (v : Byte) :
    Effect (s.setReg r v) i (t.setReg r v) := by
  cases h with
  | hlt => exact .hlt
  | @ldi a imm8 ra ha =>
    have hra : r ≠ ra := by simpa [writtenRegs, ha, Fin.val_inj] using hw
    have heff := Effect.ldi (s := s.setReg r v) (i := imm8) ha
    rwa [State.setReg_comm s hra] at heff
  | @prn a ra ha =>
    have hra : r ≠ ra := by simpa [readRegs, ha, Fin.val_inj] using hr
    have heff := Effect.prn (s := s.setReg r v) ha
    rwa [State.setReg_reg_other s v hra] at heff
  | @add a b ra rb ha hb =>
    obtain ⟨hra, hrb⟩ : r ≠ ra ∧ r ≠ rb := by simpa [readRegs, ha, hb, Fin.val_inj] using hr
    have heff := Effect.add (s := s.setReg r v) ha hb
    rwa [State.setReg_reg_other s v hra, State.setReg_reg_other s v hrb, State.setReg_comm s hra] at heff
  | @mul a b ra rb ha hb =>
    obtain ⟨hra, hrb⟩ : r ≠ ra ∧ r ≠ rb := by simpa [readRegs, ha, hb, Fin.val_inj] using hr
    have heff := Effect.mul (s := s.setReg r v) ha hb
    rwa [State.setReg_reg_other s v hra, State.setReg_reg_other s v hrb, State.setReg_comm s hra] at heff
  | @cmp a b ra rb ha hb =>
    obtain ⟨hra, hrb⟩ : r ≠ ra ∧ r ≠ rb := by simpa [readRegs, ha, hb, Fin.val_inj] using hr
    have heff := Effect.cmp (s := s.setReg r v) ha hb
    rwa [State.setReg_reg_other s v hra, State.setReg_reg_other s v hrb] at heff
  | @push a ra ha =>
    obtain ⟨hsp, hra⟩ : r ≠ spIndex ∧ r ≠ ra := by simpa [readRegs, spIndex, ha, Fin.ext_iff] using hr
    have heff := Effect.push (s := s.setReg r v) ha
    rwa [State.decSp_setReg s hsp, State.storeAtSp_setReg _ hsp, State.setReg_reg_other _ v hra] at heff
  | @pop a ra ha =>
    obtain ⟨hra, hsp⟩ : r ≠ ra ∧ r ≠ spIndex := by simpa [writtenRegs, spIndex, ha, Fin.ext_iff] using hw
    have heff := Effect.pop (s := s.setReg r v) ha
    rwa [State.setReg_memRead, State.setReg_sp_other s v hsp, State.setReg_comm s hra,
      State.incSp_setReg _ hsp] at heff
  | @call a ra ha =>
    obtain ⟨hra, hsp⟩ : r ≠ ra ∧ r ≠ spIndex := by simpa [readRegs, spIndex, ha, Fin.ext_iff] using hr
    have heff := Effect.call (s := s.setReg r v) ha
    rwa [State.setReg_reg_other s v hra, State.pushValue, State.decSp_setReg s hsp,
      State.storeAtSp_setReg _ hsp] at heff
  | ret =>
    have hsp : r ≠ spIndex := by simpa [readRegs, spIndex, Fin.ext_iff] using hr
    have heff := Effect.ret (s := s.setReg r v)
    rwa [State.setReg_memRead, State.setReg_sp_other s v hsp, State.incSp_setReg _ hsp] at heff
  | @jmp a ra ha =>
    have hra : r ≠ ra := by simpa [readRegs, ha, Fin.val_inj] using hr
    have heff := Effect.jmp (s := s.setReg r v) ha
    rwa [State.setReg_reg_other s v hra] at heff
  | @jeq a ra ha =>
    split
    case isTrue hfl =>
      have hra : r ≠ ra := by simpa [readRegs, hfl, ha, Fin.val_inj] using hr
      have heff := Effect.jeq_taken (s := s.setReg r v) ha hfl
      rwa [State.setReg_reg_other s v hra] at heff
    case isFalse hfl => exact .jeq_not_taken ha hfl
  | @jne a ra ha =>
    split
    case isTrue hfl => exact .jne_not_taken ha hfl
    case isFalse hfl =>
      have hra : r ≠ ra := by simpa [readRegs, hfl, ha, Fin.val_inj] using hr
      have heff := Effect.jne_taken (s := s.setReg r v) ha hfl
      rwa [State.setReg_reg_other s v hra] at heff

/-- Another value in a register that the effect writes without reading it, as LDI and POP do, is overwritten. -/
theorem Effect.setReg_of_written {s t : State} {i : Instr} (h : Effect s i t) {r : Reg}
    (hr : r.val ∉ readRegs s.fl i) (hw : r.val ∈ writtenRegs i) (v : Byte) : Effect (s.setReg r v) i t := by
  cases h with
  | @ldi a imm8 ra ha =>
    obtain rfl : r = ra := by simpa [writtenRegs, ha, Fin.val_inj] using hw
    have heff := Effect.ldi (s := s.setReg r v) (i := imm8) ha
    rwa [State.setReg_setReg_same] at heff
  | @pop a ra ha =>
    have hval : r.val ≠ 7 := by simpa [readRegs] using hr
    have hsp : r ≠ spIndex := fun heq => hval (congrArg Fin.val heq)
    obtain rfl : r = ra := by simpa [writtenRegs, ha, hval, Fin.val_inj] using hw
    have heff := Effect.pop (s := s.setReg r v) ha
    rwa [State.setReg_memRead, State.setReg_sp_other s v hsp, State.setReg_setReg_same] at heff
  | _ => simp_all [readRegs, writtenRegs]

/-- Settles O40: whether the effect writes the register decides what it holds afterwards. -/
theorem registersReadAreTheTables : Obligations.RegistersReadAreTheTables := by
  intro i s t r v hwf h hr
  rcases exec_next_cases h with ⟨-, heff⟩ | ⟨x, hx, -⟩
  · by_cases hw : r.val ∈ writtenRegs i
    · exact ⟨t, exec_of_effect (heff.setReg_of_written hr hw v), fun _ _ => rfl, (if_pos hw).symm, rfl⟩
    · refine ⟨_, exec_of_effect (heff.setReg_of_not_written hr hw v), ?_, ?_, rfl⟩
      · exact fun j hj => t.setReg_reg_other v hj.symm
      · rw [if_neg hw, State.setReg_reg_same]
  · cases hx.symm.trans (firstIllegalOperand_eq_none.2 hwf)

/-! ### The output log (10_state.md R23) -/

/-- The state with another output log and another terminator. -/
def State.withOutput (s : State) (o term : List Byte) : State :=
  { s with out := o, params := { s.params with prnTerminator := term } }

/-- A fetch reads neither the output log nor the terminator. -/
theorem fetch_withOutput (s : State) (o term : List Byte) : fetch (s.withOutput o term) = fetch s := rfl

/-- An effect is the same from another output log and another terminator, and emits the same bytes. -/
theorem Effect.exists_withOutput {s t : State} {i : Instr} (h : Effect s i t) (o term : List Byte) :
    ∃ d, t.out = s.out ++ d ∧ Effect (s.withOutput o term) i (t.withOutput (o ++ d) term) := by
  have keep : ∀ {j : Instr} {u : State}, u.out = s.out → Effect (s.withOutput o term) j (u.withOutput o term) →
      ∃ d, u.out = s.out ++ d ∧ Effect (s.withOutput o term) j (u.withOutput (o ++ d) term) :=
    fun hout heff => ⟨[], by rw [hout, List.append_nil], by rwa [List.append_nil]⟩
  cases h with
  | hlt => exact keep rfl .hlt
  | ldi ha => exact keep rfl (.ldi ha)
  | prn ha => exact ⟨_, rfl, .prn ha⟩
  | add ha hb => exact keep rfl (.add ha hb)
  | mul ha hb => exact keep rfl (.mul ha hb)
  | cmp ha hb => exact keep rfl (.cmp ha hb)
  | push ha => exact keep rfl (.push ha)
  | pop ha => exact keep rfl (.pop ha)
  | call ha => exact keep rfl (.call ha)
  | ret => exact keep rfl .ret
  | jmp ha => exact keep rfl (.jmp ha)
  | jeq ha =>
    split
    · exact keep rfl (.jeq_taken ha ‹_›)
    · exact keep rfl (.jeq_not_taken ha ‹_›)
  | jne ha =>
    split
    · exact keep rfl (.jne_not_taken ha ‹_›)
    · exact keep rfl (.jne_taken ha ‹_›)

/-- The same of a step, whose errors leave the output log. -/
theorem step_exists_withOutput {s t : State} (h : step s = .next t) (o term : List Byte) :
    ∃ d, t.out = s.out ++ d ∧ step (s.withOutput o term) = .next (t.withOutput (o ++ d) term) := by
  obtain ⟨hrun, ⟨e, hf, rfl⟩ | ⟨i, hf, -, heff⟩ | ⟨i, v, hf, hv, rfl⟩⟩ := step_next_cases h
  · refine ⟨[], (List.append_nil _).symm, ?_⟩
    rw [List.append_nil]
    exact step_of_fetch_error (s := s.withOutput o term) hrun ((fetch_withOutput s o term).trans hf)
  · obtain ⟨d, hd, hu⟩ := heff.exists_withOutput o term
    refine ⟨d, hd, ?_⟩
    rw [step_of_fetch_ok (s := s.withOutput o term) hrun ((fetch_withOutput s o term).trans hf)]
    exact exec_of_effect hu
  · refine ⟨[], (List.append_nil _).symm, ?_⟩
    rw [List.append_nil, step_of_fetch_ok (s := s.withOutput o term) hrun ((fetch_withOutput s o term).trans hf)]
    exact exec_of_illegal hv _

/-- Settles O42: among the errors and effects only PRN's appends; and the step from another output log and terminator
differs in them alone. -/
theorem outputOnlyByPrnAndReadByNothing : Obligations.OutputOnlyByPrnAndReadByNothing := by
  constructor
  · intro s t h hne
    obtain ⟨-, ⟨e, -, rfl⟩ | ⟨i, hf, -, heff⟩ | ⟨i, v, -, -, rfl⟩⟩ := step_next_cases h
    · exact absurd rfl hne
    · obtain hout | ⟨a, ra, rfl, ha, hout⟩ := heff.out_cases
      · exact absurd hout hne
      · exact ⟨a, ra, hf, ha, hout⟩
    · exact absurd rfl hne
  · intro s t o term h
    obtain ⟨d, hd, hu⟩ := step_exists_withOutput h o term
    refine ⟨_, hu, rfl, ?_⟩
    rw [State.withOutput, List.drop_left, hd]

end Sys2Proof.Machine
end

section
/-! Canonical memory as data, and the load of an image. -/

namespace Sys2Proof.Machine

/-! ### Canonical memories are determined by their reads -/

theorem Memory.wfFrom_cons {lo k : Nat} {v : Byte} {rest : Memory} :
    Memory.wfFrom lo ((k, v) :: rest) = true ↔
      lo ≤ k ∧ k < 256 ∧ v ≠ unlistedByte ∧ Memory.wfFrom (k + 1) rest = true := by
  simp [Memory.wfFrom, and_assoc]

theorem Memory.read_cons_same (k : Nat) (v : Byte) (rest : Memory) : Memory.read ((k, v) :: rest) k = v :=
  if_pos rfl

theorem Memory.read_cons_other {k a : Nat} (v : Byte) (rest : Memory) (h : k ≠ a) :
    Memory.read ((k, v) :: rest) a = Memory.read rest a :=
  if_neg h

/-- The first listed cell of a canonical memory reads as no unlisted cell does, so it is the first of every canonical
memory that reads alike. -/
theorem Memory.first_le_of_read_eq {lo k : Nat} {v : Byte} {rest m' : Memory}
    (h : Memory.wfFrom lo ((k, v) :: rest) = true) (h' : Memory.wfFrom lo m' = true)
    (heq : ∀ a < 256, Memory.read ((k, v) :: rest) a = Memory.read m' a) :
    ∃ k' v' rest', m' = (k', v') :: rest' ∧ k' ≤ k := by
  obtain ⟨-, hk, hv, -⟩ := Memory.wfFrom_cons.1 h
  have hread : Memory.read m' k = v := (heq k hk).symm.trans (Memory.read_cons_same k v rest)
  cases m' with
  | nil => exact absurd hread.symm hv
  | cons c rest' =>
    obtain ⟨k', v'⟩ := c
    refine ⟨k', v', rest', rfl, ?_⟩
    by_contra hlt
    obtain ⟨-, hk', hv', hrest'⟩ := Memory.wfFrom_cons.1 h'
    have hbelow : Memory.wfFrom (k + 1) ((k', v') :: rest') = true :=
      Memory.wfFrom_cons.2 ⟨by omega, hk', hv', hrest'⟩
    exact hv (hread.symm.trans (Memory.read_below hbelow (Nat.lt_succ_self k)))

theorem Memory.eq_of_read_eq {lo : Nat} {m m' : Memory} (h : Memory.wfFrom lo m = true)
    (h' : Memory.wfFrom lo m' = true) (heq : ∀ a < 256, Memory.read m a = Memory.read m' a) : m = m' := by
  induction m generalizing lo m' with
  | nil =>
    cases m' with
    | nil => rfl
    | cons c rest' =>
      obtain ⟨k', v'⟩ := c
      obtain ⟨_, _, _, hnil, -⟩ := Memory.first_le_of_read_eq h' h fun a ha => (heq a ha).symm
      cases hnil
  | cons c rest ih =>
    obtain ⟨k, v⟩ := c
    obtain ⟨k', v', rest', rfl, hle⟩ := Memory.first_le_of_read_eq h h' heq
    obtain ⟨_, _, _, hcons, hge⟩ := Memory.first_le_of_read_eq h' h fun a ha => (heq a ha).symm
    cases hcons
    obtain rfl := Nat.le_antisymm hle hge
    obtain ⟨-, hk, -, hrest⟩ := Memory.wfFrom_cons.1 h
    obtain ⟨-, -, -, hrest'⟩ := Memory.wfFrom_cons.1 h'
    have hv := heq _ hk
    rw [Memory.read_cons_same, Memory.read_cons_same] at hv
    subst hv
    have hread : ∀ a < 256, Memory.read rest a = Memory.read rest' a := by
      intro a ha
      by_cases hka : k' = a
      · subst hka
        rw [Memory.read_below hrest (Nat.lt_succ_self _), Memory.read_below hrest' (Nat.lt_succ_self _)]
      · have hcell := heq a ha
        rwa [Memory.read_cons_other _ _ hka, Memory.read_cons_other _ _ hka] at hcell
    rw [ih hrest hrest' hread]

/-- Settles O36: two canonical memories that read alike list the same first cell, and so on down the list. -/
theorem canonicalMemoriesAreEqual : Obligations.CanonicalMemoriesAreEqual :=
  ⟨fun _ _ => Memory.eq_of_read_eq, fun _ => State.wf_memWrite⟩

/-! ### Loading -/

/-- A read after a load: the loaded byte, and what was there before outside the loaded cells. -/
theorem Memory.read_load (m : Memory) (a b : Nat) (vs : List Byte) :
    Memory.read (Memory.load m a vs) b = if b < a then Memory.read m b else vs.getD (b - a) (Memory.read m b) := by
  induction vs generalizing m a with
  | nil => simp [Memory.load]
  | cons v vs ih =>
    rw [Memory.load, ih, Memory.read_write]
    obtain hlt | rfl | hgt := Nat.lt_trichotomy b a
    · rw [if_pos (by omega), if_neg (by omega), if_pos hlt]
    · simp
    · have hsub : b - a = b - (a + 1) + 1 := by omega
      rw [if_neg (by omega), if_neg (by omega), if_neg (by omega), hsub, List.getD_cons_succ]

theorem launch_of_le {p : Params} {img : List Byte} (h : img.length ≤ 256) :
    launch p img = .ok { State.resetWith p with mem := Memory.load (State.resetWith p).mem 0 img } :=
  if_pos h

theorem launch_of_gt {p : Params} {img : List Byte} (h : 256 < img.length) :
    launch p img = .error (.imageTooLong img.length) :=
  if_neg (by omega)

/-- The loaded memory is canonical: every loaded cell is below 256. -/
theorem wf_load_reset {p : Params} {img : List Byte} (h : img.length ≤ 256) :
    Memory.wf (Memory.load (State.resetWith p).mem 0 img) = true :=
  Memory.wf_load State.reset_mem_wf (by omega)

/-- Settles O3: the launched state is the reset state of its parameters but for the loaded memory. -/
theorem launchLoadsTheWholeImage : Obligations.LaunchLoadsTheWholeImage := by
  refine fun p img => ⟨fun h => ?_, launch_of_gt⟩
  refine ⟨_, launch_of_le h, ?cells, wf_load_reset h, fun _ => rfl, rfl, rfl, rfl, rfl, rfl⟩
  case cells =>
    intro c
    rw [State.memRead, Memory.read_load, if_neg (by omega)]
    rfl

end Sys2Proof.Machine
end

section
/-! The run loop: what its result says of the final state, and what every step keeps along a run. -/

namespace Sys2Proof.Machine

/-- The inversion of a step, by the status it runs from (40_control_unit.md R60): a terminal state answers its reason,
and a Running state has a next state. -/
theorem step_answers (s : State) :
    (∃ r, terminationReason s.status = some r ∧ step s = .fault r) ∨
    (s.status = .running ∧ ∃ t, step s = .next t) := by
  cases hr : terminationReason s.status with
  | some r => exact .inl ⟨r, rfl, step_of_terminationReason hr⟩
  | none =>
    have hrun := terminationReason_eq_none.1 hr
    exact .inr ⟨hrun, (running_iff_exists_step s).1 hrun⟩

theorem run_zero_of_step_next {s t : State} (h : step s = .next t) : run 0 s = .outOfFuel s := by
  simp [run, h]

/-- What a result of the run loop says of its last state. -/
def RunResult.statusFits : RunResult → Prop
  | .terminated r t => terminationReason t.status = some r
  | .outOfFuel t => t.status = .running
  | .refused _ _ => False

theorem run_statusFits (fuel : Nat) (s : State) : (run fuel s).statusFits := by
  induction fuel generalizing s with
  | zero =>
    obtain ⟨r, hr, -⟩ | ⟨hrun, t, ht⟩ := step_answers s
    · rwa [run_of_terminationReason hr]
    · rwa [run_zero_of_step_next ht]
  | succ fuel ih =>
    obtain ⟨r, hr, -⟩ | ⟨-, t, ht⟩ := step_answers s
    · rwa [run_of_terminationReason hr]
    · rw [run_succ_of_step_next ht]
      exact ih t

/-- More fuel does not change the result of a run that ended. -/
theorem run_add_of_terminated {fuel : Nat} {s t : State} {r : Fault} (h : run fuel s = .terminated r t) (more : Nat) :
    run (fuel + more) s = .terminated r t := by
  induction fuel generalizing s with
  | zero =>
    obtain ⟨r', hr, -⟩ | ⟨-, u, hu⟩ := step_answers s
    · rwa [run_of_terminationReason hr] at h ⊢
    · cases (run_zero_of_step_next hu).symm.trans h
  | succ fuel ih =>
    obtain ⟨r', hr, -⟩ | ⟨-, u, hu⟩ := step_answers s
    · rwa [run_of_terminationReason hr] at h ⊢
    · rw [run_succ_of_step_next hu] at h
      rw [Nat.add_right_comm, run_succ_of_step_next hu]
      exact ih h

/-- What every step keeps holds of the final state of a run. -/
theorem run_keeps {P : State → Prop} (hstep : ∀ s t, P s → step s = .next t → P t) {fuel : Nat} {s t : State}
    {r : Fault} (hs : P s) (h : run fuel s = .terminated r t) : P t := by
  induction fuel generalizing s with
  | zero =>
    obtain ⟨r', hr, -⟩ | ⟨-, u, hu⟩ := step_answers s
    · cases (run_of_terminationReason hr 0).symm.trans h
      exact hs
    · cases (run_zero_of_step_next hu).symm.trans h
  | succ fuel ih =>
    obtain ⟨r', hr, -⟩ | ⟨-, u, hu⟩ := step_answers s
    · cases (run_of_terminationReason hr _).symm.trans h
      exact hs
    · rw [run_succ_of_step_next hu] at h
      exact ih (hstep s u hs hu) h

/-- Settles O45: each result fits the status of its last state, and a refusal fits none. -/
theorem runStopsOnlyAtTermination : Obligations.RunStopsOnlyAtTermination := by
  refine ⟨fun fuel s t r h => ⟨?_, run_add_of_terminated h⟩, fun fuel s t h => ?_, fun fuel s t r h => ?_⟩
  all_goals
    have hfits := run_statusFits fuel s
    rwa [h] at hfits

theorem terminationReason_eq_halted_iff {st : Status} : terminationReason st = some .halted ↔ st = .halted := by
  rcases st with _ | _ | (_ | _) <;> simp [terminationReason]

theorem launch_inv {p : Params} {img : List Byte} {s : State} (hp : p.wellFormed = true)
    (h : launch p img = .ok s) : s.Inv ∧ s.params = p := by
  by_cases hlen : img.length ≤ 256
  · cases (launch_of_le hlen).symm.trans h
    have hreset := State.resetWith_inv hp
    exact ⟨⟨wf_load_reset hlen, hp, hreset.pc_range, trivial⟩, rfl⟩
  · cases (launch_of_gt (Nat.lt_of_not_le hlen)).symm.trans h

/-- Settles O46: the launched state meets the invariant with the launch's parameters, and every step keeps both. -/
theorem launchedRunEndsInTheInvariant : Obligations.LaunchedRunEndsInTheInvariant := by
  intro p img s t r fuel hp hlaunch hrun
  have hreason := (runStopsOnlyAtTermination.1 fuel s t r hrun).1
  obtain ⟨hinv, hparams⟩ : t.Inv ∧ t.params = p := by
    refine run_keeps (P := fun s => s.Inv ∧ s.params = p) ?_ (launch_inv hp hlaunch) hrun
    rintro s t ⟨hinv, hparams⟩ h
    exact ⟨stepKeepsTheInvariant s t hinv h, (parametersNeverChange s t h).trans hparams⟩
  refine ⟨hreason, hinv, hparams, ?_⟩
  rw [State.endedNormally, ← terminationReason_eq_halted_iff, hreason, Option.some_inj]

end Sys2Proof.Machine
end

section
/-! PRN and the host's text of a byte, the conditional jumps, and address addition in each setting. -/

namespace Sys2Proof.Machine

/-! ### The host's text (40_control_unit.md R73) -/

theorem asciiDigit_toNat {d : Nat} (h : d < 10) : (asciiDigit d).toNat = 0x30 + d := by
  rw [asciiDigit, trunc8_toNat]
  omega

theorem asciiDigit_eq_zero_iff {d : Nat} (h : d < 10) : asciiDigit d = 0x30 ↔ d = 0 := by
  rw [← BitVec.toNat_inj, asciiDigit_toNat h]
  simp

/-- The text of a byte is the digits of its decimal number, with no leading zero. -/
theorem decimalText_digits (v : Byte) :
    ∃ ds : List Nat, decimalText v = ds.map asciiDigit ∧ ds ≠ [] ∧ (∀ d ∈ ds, d < 10) ∧
      ds.foldl (fun n d => 10 * n + d) 0 = v.toNat ∧ (ds.head? = some 0 → ds = [0]) := by
  have hv := v.isLt
  by_cases h1 : v.toNat < 10
  · exact ⟨[v.toNat], by simp [decimalText, h1], by simp, by simpa using h1, by simp, by simp⟩
  · by_cases h2 : v.toNat < 100
    · refine ⟨[v.toNat / 10, v.toNat % 10], by simp [decimalText, h1, h2], by simp, ?_, ?_, ?_⟩ <;> simp <;> omega
    · refine ⟨[v.toNat / 100, v.toNat / 10 % 10, v.toNat % 10], by simp [decimalText, h1, h2], by simp, ?_, ?_, ?_⟩ <;>
        simp <;> omega

/-- Settles O22: each ASCII digit is read back as the digit it stands for. -/
theorem decimalTextIsTheNumber : Obligations.DecimalTextIsTheNumber := by
  intro v
  obtain ⟨ds, htext, hne, hlt, hvalue, hzero⟩ := decimalText_digits v
  rw [htext]
  refine ⟨by simpa using hne, ?value, ?digits, ?leading⟩
  case value =>
    rw [List.foldl_map, ← hvalue]
    refine List.foldl_ext _ _ _ fun n d hd => ?_
    rw [asciiDigit_toNat (hlt d hd), Nat.add_sub_cancel_left]
  case digits =>
    refine List.forall_mem_map.2 fun d hd => ?_
    have hd10 := hlt d hd
    rw [asciiDigit_toNat hd10]
    omega
  case leading =>
    intro hhead
    rw [List.head?_map, Option.map_eq_some_iff] at hhead
    obtain ⟨d, hd, hascii⟩ := hhead
    obtain rfl := (asciiDigit_eq_zero_iff (hlt d (List.mem_of_mem_head? hd))).1 hascii
    rw [hzero hd]
    rfl

/-- Settles O21: PRN's effect is an emission, whose text is that of the emitted byte. -/
theorem prnAppendsTheByte : Obligations.PrnAppendsTheByte := by
  intro s a ra ha
  refine ⟨_, exec_of_effect (.prn ha), rfl, rfl, ?text, fun _ => rfl, fun _ => rfl, rfl, rfl, rfl⟩
  case text => simp [State.hostText, renderEmission]

/-! ### The conditional jumps (44_control_flow.md R93, R94) -/

theorem Flag.less_or_greater_iff (f : Flag) : f = .less ∨ f = .greater ↔ f ≠ .equal := by
  cases f <;> decide

/-- Settles O33: whether FL is E decides between the jump and the advance, each of which writes only pc. -/
theorem conditionalJumpsFollowFl : Obligations.ConditionalJumpsFollowFl := by
  intro s a ra ha
  simp only [Flag.less_or_greater_iff]
  by_cases hfl : s.fl = .equal
  · exact ⟨⟨_, exec_of_effect (.jeq_taken ha hfl), (if_pos hfl).symm, fun _ => rfl, fun _ => rfl, rfl, rfl, rfl, rfl⟩,
      ⟨_, exec_of_effect (.jne_not_taken ha hfl), (if_neg (not_not.2 hfl)).symm, fun _ => rfl, fun _ => rfl, rfl, rfl,
        rfl, rfl⟩⟩
  · exact ⟨⟨_, exec_of_effect (.jeq_not_taken ha hfl), (if_neg hfl).symm, fun _ => rfl, fun _ => rfl, rfl, rfl, rfl,
        rfl⟩,
      ⟨_, exec_of_effect (.jne_taken ha hfl), (if_pos hfl).symm, fun _ => rfl, fun _ => rfl, rfl, rfl, rfl, rfl⟩⟩

/-! ### Address addition (20_memory.md R37) -/

/-- Settles O34: the two laws of Laws/Ops. -/
theorem addressAdditionPerSetting : Obligations.AddressAdditionPerSetting :=
  fun a k => ⟨addrPlus_wrap_toNat a k, addrPlus_fault_toNat a k⟩

end Sys2Proof.Machine
end
